-- ==== Sys2Proof/Word.lean ====
section
/-! DEFINITION. The small value types of the block: bytes and 16-bit words, the sixteen sequencing states
(10_state.md R21), the error conditions (R34) and a physical pin (R37, R97). -/

namespace Sys2Proof

/-- A channel value, a wire byte or a pin identifier: `BYTE_W = PIN_W = 8` (00_scope.md R6). -/
abbrev Byte := BitVec 8

/-- The pixel count, the byte counters and the tick counter: `LEN_W = CNT_W = TCNT_W = 16` (R6). -/
abbrev Half := BitVec 16

/-- The sixteen states of `FSM` (10_state.md R21, 30_encoding.md R98), in code order. -/
inductive Fsm where
  | idle | validate | pininit | acquire | resolve | preload | driveHigh | extract
  | branchZero | branchOne | driveLow | fillLow | decideContinue | release | latch | done
  deriving DecidableEq, Repr

/-- The error conditions of `ERR` (10_state.md R34, 30_encoding.md R99). Code 3 is no state of the model (U1; log 18). -/
inductive Err where
  | noError | tooManyPixels | pinResolution
  deriving DecidableEq, Repr

/-- A physical pin: a port-register address and a bit offset (10_state.md R37, R41, 30_encoding.md R97). The widths
`PORT_W` and `IOADDR_W` are parameters (00_scope.md R6, D8), so addresses and port values are numbers throughout, the
bits of a port value are read with `testBit`, and that they fit their widths is an invariant (log 17). -/
structure PinRef where
  addr : Nat
  bit  : Nat
  deriving DecidableEq, Repr

/-- A pixel: three channel values in wire order, green, red, blue (30_encoding.md R91, 20_memory.md R61). -/
structure Pixel where
  green : Byte
  red   : Byte
  blue  : Byte
  deriving DecidableEq, Repr

end Sys2Proof
end

