-- ==== Sys2Proof/Config.lean ====
section
/-! DEFINITION. What an implementation fixes (00_scope.md R6, R7; 92_eei_decisions.md "Open parameters") and the
free values. -/

namespace Sys2Proof

/-- The parameters the spec leaves open. They are plain data held in State and no step changes them (log 4, log 9). -/
structure Config where
  /-- HIGH dwell of a 0 bit in ticks (`T0H`). -/
  t0h : Nat
  /-- HIGH dwell of a 1 bit in ticks (`T1H`). -/
  t1h : Nat
  /-- Bit period in ticks (`TBIT`). -/
  tbit : Nat
  /-- Ticks spent in LATCH (`LATCH_TICKS`). -/
  latchTicks : Nat
  /-- Length of a tick in ns (`TICK_NS`). -/
  tickNs : Nat
  /-- Width of a port register (`PORT_W`, D8; log 17). -/
  portW : Nat
  /-- Width of an I/O address (`IOADDR_W`, D8; log 17). -/
  ioaddrW : Nat
  /-- Tolerance of the reference receiver in ns (`TOL_NS`, R101, D14). -/
  tolNs : Nat
  /-- The resolver's table `PINMAP` (10_state.md R41): a pin that is not listed fails; the first entry of a pin counts. -/
  pinmap : List (Byte × PinRef)
  /-- The pin whose line the LED chain is wired to (00_scope.md R10, R76; the model's own, log 5). -/
  strip : PinRef
  deriving DecidableEq, Repr

namespace Config

/-- The default column of 00_scope.md R6; an empty resolver table and pin (0, 0) for the chain (log 4, log 5). -/
def default : Config :=
  { t0h := 7, t1h := 18, tbit := 25, latchTicks := 1000, tickNs := 50, portW := 8, ioaddrW := 16, tolNs := 150,
    pinmap := [], strip := ⟨0, 0⟩ }

/-- HIGH dwell in ticks of a bit (`TH` of 44_bit_engine.md R151). -/
def th (c : Config) (b : Bool) : Nat := if b then c.t1h else c.t0h

/-- Largest wire-byte count `MAX_BYTES` (R6). -/
def maxBytes : Nat := 65535

/-- Largest pixel count `MAX_PIXELS` (R6, C6). -/
def maxPixels : Nat := 21845

/-- LOW dwell in ticks of a bit (`T0L`, `T1L` of R6): the rest of the bit period. -/
def tl (c : Config) (b : Bool) : Nat := c.tbit - c.th b

/-- Wire bytes in a pixel `CH_PER_PIXEL` (R6). -/
def channelsPerPixel : Nat := 3

/-- The source's table of dwells, its bit period and its latch minimum in ns (R6, R94). -/
def t0hNs : Nat := 350
@[inherit_doc t0hNs] def t0lNs : Nat := 900
@[inherit_doc t0hNs] def t1hNs : Nat := 900
@[inherit_doc t0hNs] def t1lNs : Nat := 350
@[inherit_doc t0hNs] def bitNs : Nat := 1250
@[inherit_doc t0hNs] def latchNs : Nat := 50000

/-- Are the tick counts exactly the source's times (R94: no rounding at 50 ns a tick, D1)? R7 does not ask it. -/
def nominal (c : Config) : Bool :=
  decide (c.t0h * c.tickNs = t0hNs) && decide (c.t1h * c.tickNs = t1hNs) && decide (c.tl false * c.tickNs = t0lNs) &&
    decide (c.tl true * c.tickNs = t1lNs) && decide (c.tbit * c.tickNs = bitNs)

/-- Is this an I/O address (20_memory.md R60)? -/
def addrFits (c : Config) (a : Nat) : Bool := decide (a < 2 ^ c.ioaddrW)

/-- Does a value fit a port register (20_memory.md R64)? -/
def wordFits (c : Config) (v : Nat) : Bool := decide (v < 2 ^ c.portW)

/-- Is this a bit of a port register (10_state.md R41, 93_implementation_defined.md U10)? -/
def pinFits (c : Config) (r : PinRef) : Bool := c.addrFits r.addr && decide (r.bit < c.portW)

/-- A value the spec leaves unspecified: `w` bits wide, for the register numbered `reg`, at the `k`-th draw.
It has no body, so nothing can be proved of it (log 6: registers after a reset tick; log 8: bytes read beyond the
caller's buffer). -/
opaque freeValue (w reg k : Nat) : BitVec w

end Config

end Sys2Proof
end

