-- ==== Sys2Proof/Syntax.lean ====
section
/-! DEFINITION. One constructor per row of spec/opcode_table.json (30_encoding.md R105): the host command, the three
wire symbols and the sixteen operations of the block. -/

namespace Sys2Proof

/-- The rows of the opcode table. Only SETSTRIPE has operands (30_encoding.md R90); its `pixels` is bound through the
buffer port and is not encoded. -/
inductive Instr where
  /-- SETSTRIPE len=<n> pin=<p> (R90, R200). -/
  | setstripe (length : Half) (pin : Byte)
  /-- SYM0: wire symbol of a 0 bit (R94). -/
  | sym0
  /-- SYM1: wire symbol of a 1 bit (R94). -/
  | sym1
  /-- LATCHSYM: the frame latch on the wire (R95, R191). -/
  | latchsym
  /-- IDLE (R201). -/
  | idle
  /-- VALIDATE (R121). -/
  | validate
  /-- PININIT (R133). -/
  | pininit
  /-- ACQUIRE (R141). -/
  | acquire
  /-- RESOLVE (R134). -/
  | resolve
  /-- PRELOAD (R153). -/
  | preload
  /-- DRIVE_HIGH (R155). -/
  | driveHigh
  /-- EXTRACT (R157). -/
  | extract
  /-- BRANCH_ZERO (R159). -/
  | branchZero
  /-- BRANCH_ONE (R160). -/
  | branchOne
  /-- DRIVE_LOW (R162). -/
  | driveLow
  /-- FILL_LOW (R164). -/
  | fillLow
  /-- DECIDE (R168). -/
  | decideContinue
  /-- RELEASE (R143). -/
  | release
  /-- LATCH (R191). -/
  | latch
  /-- DONE (R203). -/
  | done
  deriving DecidableEq, Repr

end Sys2Proof
end

