-- ==== Sys2Proof/WellFormed.lean ====
section
/-! DEFINITION. What makes a parameter set legal (00_scope.md R7) and an instruction well formed. -/

namespace Sys2Proof

/-- 00_scope.md R7, clause by clause, and the DEDUCED bound that a slot's tick count fits `TCNT` (10_state.md R29:
`TCNT` is 16 bits and holds 0 to `TBIT - 1`; log 9); and every pin of the resolver's table, and the chain's, is a bit of an
I/O register (10_state.md R41, U10). A set that breaks it is refused (U10, U15). -/
def Config.wf (c : Config) : Bool :=
  decide (2 ≤ c.t0h) && decide (c.t0h < c.t1h) && decide (c.t1h + 2 ≤ c.tbit) && decide (c.t0h * c.tickNs < 500) &&
    decide (50000 ≤ c.latchTicks * c.tickNs) && decide (c.latchTicks < 65536) && decide (c.tbit ≤ 65536) &&
    c.pinmap.all (fun e => c.pinFits e.2) && c.pinFits c.strip

/-- An instruction is well formed under a parameter set: a wire symbol exists only under a legal set (R7, R94); every
24-bit request word may be presented (30_encoding.md R90, R100) and every state code is defined (R98). -/
def Instr.wf (c : Config) : Instr → Bool
  | .sym0 => c.wf
  | .sym1 => c.wf
  | .latchsym => c.wf
  | .setstripe _ _ => true
  | .idle => true
  | .validate => true
  | .pininit => true
  | .acquire => true
  | .resolve => true
  | .preload => true
  | .driveHigh => true
  | .extract => true
  | .branchZero => true
  | .branchOne => true
  | .driveLow => true
  | .fillLow => true
  | .decideContinue => true
  | .release => true
  | .latch => true
  | .done => true

end Sys2Proof
end

