-- ==== Sys2Proof/Decode.lean ====
section
/-! DEFINITION. The encodings of 30_encoding.md (R90 request, R94 and R95 wire, R98 FSM), decoder and encoder.
A code carries its format, because the three formats never share a channel: the request arrives on ports, the symbols
on the wire, the state code in FSM (R105). -/

namespace Sys2Proof

/-- The three formats of the opcode table (R105). -/
inductive Format where
  | request | wire | fsm
  deriving DecidableEq, Repr

/-- A code word: its format, its width in bits and its bits, bit 0 the least significant. For a wire format the most
significant bit is the first tick (R11, R94). -/
structure Code where
  format : Format
  width  : Nat
  bits   : Nat
  deriving DecidableEq, Repr

/-- The 4-bit code of a state (R98). -/
def Fsm.code : Fsm → BitVec 4
  | .idle => 0b0000#4
  | .validate => 0b0001#4
  | .pininit => 0b0010#4
  | .acquire => 0b0011#4
  | .resolve => 0b0100#4
  | .preload => 0b0101#4
  | .driveHigh => 0b0110#4
  | .extract => 0b0111#4
  | .branchZero => 0b1000#4
  | .branchOne => 0b1001#4
  | .driveLow => 0b1010#4
  | .fillLow => 0b1011#4
  | .decideContinue => 0b1100#4
  | .release => 0b1101#4
  | .latch => 0b1110#4
  | .done => 0b1111#4

/-- The state a 4-bit code names: all sixteen codes are defined (R98). -/
def Fsm.ofCode (c : BitVec 4) : Fsm :=
  match c.toNat with
  | 0 => .idle
  | 1 => .validate
  | 2 => .pininit
  | 3 => .acquire
  | 4 => .resolve
  | 5 => .preload
  | 6 => .driveHigh
  | 7 => .extract
  | 8 => .branchZero
  | 9 => .branchOne
  | 10 => .driveLow
  | 11 => .fillLow
  | 12 => .decideContinue
  | 13 => .release
  | 14 => .latch
  | _ => .done

/-- The operation a state performs (10_state.md R21, 46_orchestration.md R204). -/
def Fsm.instr : Fsm → Instr
  | .idle => .idle
  | .validate => .validate
  | .pininit => .pininit
  | .acquire => .acquire
  | .resolve => .resolve
  | .preload => .preload
  | .driveHigh => .driveHigh
  | .extract => .extract
  | .branchZero => .branchZero
  | .branchOne => .branchOne
  | .driveLow => .driveLow
  | .fillLow => .fillLow
  | .decideContinue => .decideContinue
  | .release => .release
  | .latch => .latch
  | .done => .done

/-- The tick string of a symbol as a number, first tick most significant: `th` ones, then zeros to `tbit` (R94). -/
def symbolBits (th tbit : Nat) : Nat := (2 ^ th - 1) * 2 ^ (tbit - th)

/-- The request word `REQ = {pin[7:0], length[15:0]}` (R90). -/
def requestWord (length : Half) (pin : Byte) : Nat := pin.toNat * 2 ^ 16 + length.toNat

/-- Total decoder; `none` for every code that is no row's. A wire format's rows depend on the parameters. -/
def decode (c : Config) (w : Code) : Option Instr :=
  match w.format with
  | .request =>
    if w.width = 24 ∧ w.bits < 2 ^ 24 then
      some (.setstripe (BitVec.ofNat 16 w.bits) (BitVec.ofNat 8 (w.bits / 2 ^ 16)))
    else none
  | .fsm => if w.width = 4 ∧ w.bits < 2 ^ 4 then some (Fsm.ofCode (BitVec.ofNat 4 w.bits)).instr else none
  | .wire =>
    if w.width = c.latchTicks ∧ w.bits = 0 then some .latchsym
    else if w.width = c.tbit ∧ w.bits = symbolBits c.t0h c.tbit then some .sym0
    else if w.width = c.tbit ∧ w.bits = symbolBits c.t1h c.tbit then some .sym1
    else none

/-- The code word of a state (R98). -/
def Fsm.codeWord (f : Fsm) : Code := ⟨.fsm, 4, f.code.toNat⟩

/-- The encoder, written from the same tables as the decoder. -/
def encode (c : Config) : Instr → Code
  | .setstripe len pin => ⟨.request, 24, requestWord len pin⟩
  | .sym0 => ⟨.wire, c.tbit, symbolBits c.t0h c.tbit⟩
  | .sym1 => ⟨.wire, c.tbit, symbolBits c.t1h c.tbit⟩
  | .latchsym => ⟨.wire, c.latchTicks, 0⟩
  | .idle => Fsm.codeWord .idle
  | .validate => Fsm.codeWord .validate
  | .pininit => Fsm.codeWord .pininit
  | .acquire => Fsm.codeWord .acquire
  | .resolve => Fsm.codeWord .resolve
  | .preload => Fsm.codeWord .preload
  | .driveHigh => Fsm.codeWord .driveHigh
  | .extract => Fsm.codeWord .extract
  | .branchZero => Fsm.codeWord .branchZero
  | .branchOne => Fsm.codeWord .branchOne
  | .driveLow => Fsm.codeWord .driveLow
  | .fillLow => Fsm.codeWord .fillLow
  | .decideContinue => Fsm.codeWord .decideContinue
  | .release => Fsm.codeWord .release
  | .latch => Fsm.codeWord .latch
  | .done => Fsm.codeWord .done

/-- The code word a table row of `nbits` bits stands for (whole bytes, or the row's own width): the widths of the
table tell the formats apart at the default parameters (log 25). -/
def tableCode (nbits w : Nat) : Option Code :=
  if nbits = 4 ∨ nbits = 8 then some ⟨.fsm, 4, w⟩
  else if nbits = 24 then some ⟨.request, 24, w⟩
  else if nbits = 25 ∨ nbits = 32 then some ⟨.wire, 25, w⟩
  else if nbits = 1000 then some ⟨.wire, 1000, w⟩
  else none

/-- What the decoder reads from a row's bits, numbered as spec/opcode_table.json numbers them, at the default
parameters of R6. -/
def decodeTableWord (nbits w : Nat) : Option Instr :=
  match tableCode nbits w with
  | some code => decode Config.default code
  | none => none

end Sys2Proof
end

