-- ==== Sys2Proof/Machine/State.lean ====
section
/-! DEFINITION. The state of the machine: the block's fifteen registers (10_state.md R20), the environment state it
touches (R37 to R41), the input ports (R45), and three fields of the model's own (agenda, wave, draws). -/

namespace Sys2Proof.Machine

open Sys2Proof (Byte Half Fsm Err PinRef Config)

/-- The I/O space as address and register pairs, addresses strictly rising, no pair equal to what an unlisted register
reads as (`Memory.wf`). A cell is a whole register, the unit of the space (20_memory.md R60, R64; log 17). -/
abbrev Memory := List (Nat × Nat)

/-- The input ports the host drives (10_state.md R45). The other input ports are functions of BUF, PINMAP, IO, GIE. -/
structure Ports where
  rst    : Bool
  start  : Bool
  reqLen : Half
  reqPin : Byte
  deriving DecidableEq, Repr

/-- One move of the environment (93_implementation_defined.md U4, U5, U8; 10_state.md R37 to R40). -/
inductive EnvMove where
  /-- Another agent writes an I/O register (U4); where there is no such register or the value is too wide for it,
  nothing happens. -/
  | ioWrite (addr : Nat) (value : Nat)
  /-- Another agent writes GIE (U5). -/
  | gieWrite (value : Bool)
  /-- The caller writes one buffer byte (U8); beyond the buffer nothing happens. -/
  | bufWrite (index : Nat) (value : Byte)
  /-- The caller binds a buffer to the port (R45). -/
  | bufBind (bytes : List Byte)
  /-- Another agent sets a pin's direction (R39); where there is no such pin nothing happens. -/
  | setDirection (pin : PinRef) (output : Bool)
  deriving DecidableEq, Repr

/-- The inputs of one tick: the environment's moves, which land before the block acts, and the ports (log 13). -/
structure TickInput where
  ports : Ports
  moves : List EnvMove
  deriving DecidableEq, Repr

/-- The wire symbols (30_encoding.md R94, R95). -/
inductive Symbol where
  | zero | one | latch
  deriving DecidableEq, Repr

/-- What the outside world does next. -/
inductive Event where
  /-- One tick of the clock with these inputs. -/
  | tick (input : TickInput)
  /-- The host calls SETSTRIPE with its buffer and waits for the return (R104, R200, R212). -/
  | call (length : Half) (pin : Byte) (pixels : List Byte)
  /-- A wire symbol is put on the strip's line (R94, R95; log 12). -/
  | wire (symbol : Symbol)
  deriving DecidableEq, Repr

/-- Why the machine stops. The block itself has no fault (60_exceptions.md R233). -/
inductive Fault where
  /-- Raised by SETSTRIPE when the block is not back in IDLE after the steps of 46_orchestration.md R206. It cannot
  happen under R7 (every accepted request ends); stopping there is safe. -/
  | callNeverReturned
  deriving DecidableEq, Repr

/-- Why a run is not accepted. -/
inductive Refusal where
  /-- An instruction that has no meaning yet; raised by exec's arms only. Safe. -/
  | notModelled (mnemonic : String)
  /-- Raised by the accepting IDLE step when the validator would pass and the bound buffer holds fewer than
  `3 * length` bytes (20_memory.md R67, U3, D17; log 7). Safe. -/
  | shortBuffer
  /-- Raised by the step when the parameters break 00_scope.md R7 or give a pin that is no bit of an I/O register (U10,
  U15; log 9). Safe. -/
  | badConfiguration
  deriving DecidableEq, Repr

/-- The whole state. -/
structure State where
  /-- `FSM`, the sequencing register (R21). -/
  fsm : Fsm
  /-- `LEN`, the pixel count of the request (R22). -/
  len : Half
  /-- `PIN`, the logical pin of the request (R23). -/
  pin : Byte
  /-- `REMAIN`, wire bytes not yet completely sent (R24). -/
  remain : Half
  /-- `PTR`, index of the next byte to fetch (R25). -/
  ptr : Half
  /-- `SHREG`, the byte being sent (R26). -/
  shreg : Byte
  /-- `BITCNT`, bits of the byte not yet completed (R27). -/
  bitcnt : BitVec 4
  /-- `CURBIT`, the bit in flight (R28). -/
  curbit : Bool
  /-- `TCNT`, the tick counter (R29). -/
  tcnt : Half
  /-- `IOADDR`, address half of the target (R30). -/
  ioaddr : Nat
  /-- `MASK`, mask half of the target (R31). -/
  mask : Nat
  /-- `PORTVAL`, the value last written to the port register (R32). -/
  portval : Nat
  /-- `TOKEN`, the saved interrupt-enable value (R33). -/
  token : Bool
  /-- `ERR`, the error condition (R34). -/
  err : Err
  /-- `OK`, the success flag (R35). -/
  ok : Bool
  /-- `IO`, the I/O space (R37). -/
  io : Memory
  /-- `GIE`, the global interrupt-enable flag (R38). -/
  gie : Bool
  /-- `OUTMODE`, the pins in output mode (R39), in rising order. -/
  outmode : List PinRef
  /-- `BUF`, the pixel buffer (R40). -/
  buf : List Byte
  /-- The parameters, `PINMAP` among them (R6, R41). -/
  cfg : Config
  /-- The input ports (R45). -/
  ports : Ports
  /-- The model's own: what the outside world does next, oldest first (log 13, log 19). -/
  agenda : List Event
  /-- The model's own: the waveform W of the strip's line, newest sample first (R9, R76; log 15). -/
  wave : List Bool
  /-- The model's own: how many times free values were drawn (log 6, log 8). -/
  draws : Nat
  deriving DecidableEq, Repr

/-- The machine right after reset: FSM, ERR, OK as 10_state.md R44 says; every other value is named in log 1 to 5, 14
and 15. -/
def State.reset : State :=
  { fsm := .idle, len := 0, pin := 0, remain := 0, ptr := 0, shreg := 0, bitcnt := 0, curbit := false, tcnt := 0,
    ioaddr := 0, mask := 0, portval := 0, token := false, err := .noError, ok := false, io := [], gie := false,
    outmode := [], buf := [], cfg := Config.default,
    ports := { rst := false, start := false, reqLen := 0, reqPin := 0 }, agenda := [], wave := [], draws := 0 }

end Sys2Proof.Machine
end

