-- ==== Sys2Proof/Machine/Ops.lean ====
section
/-! DEFINITION. The shared operations over the I/O space, the pin-direction set, the resolver table and the strip's
line, the early return (60_exceptions.md R238) and its end (R241), the block's reset (10_state.md R44) and the
environment's moves. -/

namespace Sys2Proof.Machine

open Sys2Proof (Byte Half Fsm Err PinRef Config)

/-- What an I/O register nobody has written reads as (DESIGN CHOICE, log 2). -/
def unlisted : Nat := 0

/-- Read of the register at an address. -/
def Memory.read : Memory → Nat → Nat
  | [], _ => unlisted
  | c :: rest, a => if c.1 = a then c.2 else Memory.read rest a

/-- The memory without its entry at an address. -/
def Memory.erase (m : Memory) (a : Nat) : Memory := m.filter fun c => c.1 != a

/-- The memory with an entry put before the first larger address. -/
def Memory.insert : Memory → Nat → Nat → Memory
  | [], a, v => [(a, v)]
  | c :: rest, a, v => if a < c.1 then (a, v) :: c :: rest else c :: Memory.insert rest a v

/-- Write of the register at an address, keeping the canonical form. -/
def Memory.write (m : Memory) (a : Nat) (v : Nat) : Memory :=
  if v = unlisted then Memory.erase m a else Memory.insert (Memory.erase m a) a v

/-- The canonical form: addresses strictly rising, every address and value of its width (R60, R64), no entry an
unlisted register would read as. -/
abbrev Memory.wf (c : Config) (m : Memory) : Prop :=
  m.Pairwise (fun d e => d.1 < e.1) ∧ ∀ d ∈ m, d.2 ≠ unlisted ∧ c.addrFits d.1 = true ∧ c.wordFits d.2 = true

/-- `IORead(a)` (00_scope.md R12). -/
def State.ioRead (s : State) (a : Nat) : Nat := Memory.read s.io a

/-- `IOWrite(a, v)` (00_scope.md R12, 60_exceptions.md R246): plain storage, visible in the next state. -/
def State.ioWrite (s : State) (a : Nat) (v : Nat) : State := { s with io := Memory.write s.io a v }

/-- The order of pins in OUTMODE: by address, then by bit. -/
def pinBefore (p q : PinRef) : Bool := decide (p.addr < q.addr) || (decide (p.addr = q.addr) && decide (p.bit < q.bit))

/-- OUTMODE with a pin added (`OUTMODE ∪ {(a, b)}`, 42_pin_resolver.md R132). -/
def PinSet.insert : List PinRef → PinRef → List PinRef
  | [], p => [p]
  | q :: rest, p =>
    if p = q then q :: rest else if pinBefore p q then p :: q :: rest else q :: PinSet.insert rest p

/-- OUTMODE with a pin taken out. -/
def PinSet.erase (l : List PinRef) (p : PinRef) : List PinRef := l.filter fun q => decide (q ≠ p)

/-- The canonical form of OUTMODE: pins strictly rising. -/
abbrev PinSet.wf (l : List PinRef) : Prop := l.Pairwise fun p q => pinBefore p q = true

/-- First entry of a pin in a resolver table. -/
def resolveIn : List (Byte × PinRef) → Byte → Option PinRef
  | [], _ => none
  | e :: rest, p => if e.1 = p then some e.2 else resolveIn rest p

/-- `Resolve(p) = PINMAP(p)` (42_pin_resolver.md R130, R131): `none` is `fail`. -/
def State.resolve (s : State) (p : Byte) : Option PinRef := resolveIn s.cfg.pinmap p

/-- `1 << b` (30_encoding.md R97). -/
def bitMask (b : Nat) : Nat := 1 <<< b

/-- `v & ~m`: the bits of `v` outside the mask. The complement needs no width: bits set and then flipped are clear. -/
def clearBits (v m : Nat) : Nat := (v ||| m) ^^^ m

/-- `PinLevel`: the pin's port bit (10_state.md R37, D22). -/
def State.level (s : State) (p : PinRef) : Bool := (s.ioRead p.addr).testBit p.bit

/-- The service `PinConfigOutLow(p)` (42_pin_resolver.md R132): the pin's bit cleared, its neighbours kept, the pin in
output mode; nothing for a pin that does not resolve. -/
def State.pinConfigOutLow (s : State) (p : Byte) : State :=
  match s.resolve p with
  | some r =>
    { s.ioWrite r.addr (clearBits (s.ioRead r.addr) (bitMask r.bit)) with outmode := PinSet.insert s.outmode r }
  | none => s

/-- `raise E`: the early return of 60_exceptions.md R238, the block's analog of taking an exception. The error code is
recorded and control goes to the fixed state named; nothing is saved and no mode or mask changes. -/
def State.raise (s : State) (e : Err) (target : Fsm) : State := { s with err := e, fsm := target }

/-- The return of 60_exceptions.md R241: it restores nothing. -/
def State.returnToIdle (s : State) : State := { s with fsm := .idle }

/-- Reset at a tick (10_state.md R44, 70_reset_and_hazards.md R260 to R262): FSM, ERR and OK get their values, every
other block register a free value (log 6), the environment's state is not touched. -/
def State.resetBlock (s : State) : State :=
  { s with
    fsm := .idle
    err := .noError
    ok := false
    len := Config.freeValue 16 0 s.draws
    pin := Config.freeValue 8 1 s.draws
    remain := Config.freeValue 16 2 s.draws
    ptr := Config.freeValue 16 3 s.draws
    shreg := Config.freeValue 8 4 s.draws
    bitcnt := Config.freeValue 4 5 s.draws
    curbit := (Config.freeValue 1 6 s.draws).getLsbD 0
    tcnt := Config.freeValue 16 7 s.draws
    ioaddr := (Config.freeValue s.cfg.ioaddrW 8 s.draws).toNat
    mask := (Config.freeValue s.cfg.portW 9 s.draws).toNat
    portval := (Config.freeValue s.cfg.portW 10 s.draws).toNat
    token := (Config.freeValue 1 11 s.draws).getLsbD 0
    draws := s.draws + 1 }

/-- The LED chain sees one state: the level of its pin goes on the record (00_scope.md R8, R9; log 15). -/
def State.sample (s : State) : State := { s with wave := s.level s.cfg.strip :: s.wave }

/-- The chain sees `k` states in which its pin does not change. -/
def State.hold (s : State) (k : Nat) : State := { s with wave := List.replicate k (s.level s.cfg.strip) ++ s.wave }

/-- The strip's line driven to a level: its port bit set or cleared, its neighbours kept (log 12). -/
def State.driveLine (s : State) (high : Bool) : State :=
  let a := s.cfg.strip.addr
  let m := bitMask s.cfg.strip.bit
  s.ioWrite a (if high then s.ioRead a ||| m else clearBits (s.ioRead a) m)

/-- One move of the environment (U4, U5, U8). -/
def State.applyMove (s : State) : EnvMove → State
  | .ioWrite a v => if s.cfg.addrFits a && s.cfg.wordFits v then s.ioWrite a v else s
  | .gieWrite v => { s with gie := v }
  | .bufWrite i v => { s with buf := s.buf.set i v }
  | .bufBind bytes => { s with buf := bytes }
  | .setDirection p output =>
    if s.cfg.pinFits p then
      { s with outmode := if output then PinSet.insert s.outmode p else PinSet.erase s.outmode p }
    else s

/-- The host binds a buffer to the port for a call (10_state.md R45). A call that this tick does not sample, because the
block is busy or in reset, is not seen at all, its buffer included (30_encoding.md R100, 46_orchestration.md R201; that
the binding is part of what is not seen is DEDUCED, log 10). -/
def State.bindBuffer (s : State) (pixels : List Byte) : State :=
  { s with buf := if s.fsm = .idle ∧ s.ports.rst = false then pixels else s.buf }

/-- Moves in their order. -/
def State.applyMoves (s : State) : List EnvMove → State
  | [] => s
  | m :: rest => (s.applyMove m).applyMoves rest

/-- The inputs of a tick arrive: the moves, then the ports (log 13). -/
def State.applyInput (s : State) (i : TickInput) : State := { s.applyMoves i.moves with ports := i.ports }

end Sys2Proof.Machine
end

