-- ==== Sys2Proof/Machine/Operands.lean ====
section
/-! DEFINITION. The operands the operations read: the request on the ports, the wire-byte count, a buffer byte, the
bit that leaves the shift register; and the byte and bit order of a frame. -/

namespace Sys2Proof.Machine

open Sys2Proof (Byte Half Pixel Config)

/-- The wire-byte count `N = 3 * length`, exact (30_encoding.md R92, 41_validator.md R122). -/
def wireBytes (length : Half) : Nat := length.toNat * 3

/-- Does the validator pass this length (41_validator.md R121)? -/
def lengthFits (length : Half) : Bool := decide (wireBytes length ≤ Config.maxBytes)

/-- Does a sequence hold at least `n` elements? -/
def holdsAtLeast {α : Type} : Nat → List α → Bool
  | 0, _ => true
  | _ + 1, [] => false
  | n + 1, _ :: rest => holdsAtLeast n rest

/-- Is the bound buffer long enough for a request (20_memory.md R67)? A length the validator refuses needs none. -/
def State.bufferServes (s : State) (length : Half) : Bool :=
  !lengthFits length || holdsAtLeast (wireBytes length) s.buf

/-- `MemRead(i, 1)` (00_scope.md R12, 20_memory.md R60): the buffer's byte, and beyond the buffer a free value (log 8). -/
def State.bufByte (s : State) (i : Nat) : Byte :=
  match s.buf[i]? with
  | some b => b
  | none => Config.freeValue 8 (12 + i) s.draws

/-- The count of free values after a buffer read (log 8). -/
def State.drawsAfterRead (s : State) (i : Nat) : Nat :=
  match s.buf[i]? with
  | some _ => s.draws
  | none => s.draws + 1

/-- `SHREG[7]` (44_bit_engine.md R157). -/
def topBit (b : Byte) : Bool := b.getLsbD 7

/-- `{SHREG[6:0], 0b0}` (44_bit_engine.md R157). -/
def shiftOut (b : Byte) : Byte := b <<< 1

/-- The bytes of pixels in memory, which is wire order (20_memory.md R61, 30_encoding.md R91). -/
def pixelBytes (pixels : List Pixel) : List Byte := pixels.flatMap fun p => [p.green, p.red, p.blue]

/-- The bits of a byte, most significant first (30_encoding.md R93). -/
def byteBits (b : Byte) : List Bool :=
  [b.getLsbD 7, b.getLsbD 6, b.getLsbD 5, b.getLsbD 4, b.getLsbD 3, b.getLsbD 2, b.getLsbD 1, b.getLsbD 0]

/-- The wire bits of a frame (20_memory.md R62). -/
def frameBits (bytes : List Byte) : List Bool := bytes.flatMap byteBits

end Sys2Proof.Machine
end

