-- ==== Sys2Proof/Machine/Flags.lean ====
section
/-! DEFINITION. The result flags and how they are written (10_state.md R34, R35), the status flags (R36) and the other
output ports (R45), which are functions of the state. -/

namespace Sys2Proof.Machine

open Sys2Proof (Byte Half Fsm Err)

/-- Both result flags cleared, as the accepting IDLE step does (46_orchestration.md R201). -/
def State.clearResult (s : State) : State := { s with err := .noError, ok := false }

/-- The engine reports success (44_bit_engine.md R153, R168). -/
def State.succeed (s : State) : State := { s with ok := true }

/-- The 2-bit code of `ERR` (30_encoding.md R99). -/
def errCode : Err → BitVec 2
  | .noError => 0#2
  | .tooManyPixels => 1#2
  | .pinResolution => 2#2

/-- `busy = (FSM != IDLE)` (10_state.md R36). -/
def State.busy (s : State) : Bool := decide (s.fsm ≠ .idle)

/-- `done = (FSM == DONE)` (10_state.md R36). -/
def State.doneFlag (s : State) : Bool := decide (s.fsm = .done)

/-- The result pair on the ports `ok`, `err` (10_state.md R36, 30_encoding.md R99). -/
def State.result (s : State) : Bool × BitVec 2 := (s.ok, errCode s.err)

/-- `buf_idx` (10_state.md R45): the index presented to the buffer. Outside PRELOAD and DECIDE nothing reads it; the
model shows `PTR` there (log 23). -/
def State.bufIdx (s : State) : Half := if s.fsm = .preload then 0 else s.ptr

/-- The buffer index a state's step reads, if it reads one (20_memory.md R65): 0 in PRELOAD when bytes are to be sent,
`PTR` in DECIDE at the end of a byte that is not the last (44_bit_engine.md R153, R168); none in a reset tick (R44). -/
def State.readIndex (s : State) : Option Half :=
  if s.ports.rst then none
  else if s.fsm = .preload ∧ s.remain ≠ 0 then some 0
  else if s.fsm = .decideContinue ∧ s.bitcnt = 1 ∧ s.remain ≠ 1 then some s.ptr
  else none

/-- `res_pin`, always `PIN` (10_state.md R45). -/
def State.resPin (s : State) : Byte := s.pin

/-- `cfg_req` (10_state.md R45). -/
def State.cfgReq (s : State) : Bool := decide (s.fsm = .pininit)

/-- `io_we` (10_state.md R45). -/
def State.ioWe (s : State) : Bool := decide (s.fsm = .driveHigh) || decide (s.fsm = .driveLow)

/-- `io_addr` (10_state.md R45). -/
def State.ioAddrPort (s : State) : Nat := s.ioaddr

/-- `io_wdata` (10_state.md R45): what DRIVE_HIGH and DRIVE_LOW store (44_bit_engine.md R155, R162). Outside them
nothing stores it; the model shows DRIVE_LOW's value there (log 23). -/
def State.ioWdata (s : State) : Nat :=
  if s.fsm = .driveHigh then s.ioRead s.ioaddr ||| s.mask else s.portval ^^^ s.mask

/-- `gie_we` (10_state.md R45). -/
def State.gieWe (s : State) : Bool := decide (s.fsm = .acquire) || decide (s.fsm = .release)

/-- `gie_wdata`: 0 in ACQUIRE, `TOKEN` in RELEASE (10_state.md R45). Outside them nothing stores it; the model shows
`TOKEN` there (log 23). -/
def State.gieWdata (s : State) : Bool := if s.fsm = .acquire then false else s.token

/-- All output ports of 10_state.md R45, in the table's order. -/
structure OutPorts where
  bufIdx : Half
  resPin : Byte
  cfgReq : Bool
  ioAddr : Nat
  ioWdata : Nat
  ioWe : Bool
  gieWe : Bool
  gieWdata : Bool
  busy : Bool
  done : Bool
  ok : Bool
  err : BitVec 2
  deriving DecidableEq, Repr

/-- The output ports of a state. R45 does not say whether the strobes `io_we`, `gie_we` and `cfg_req` are gated in a
tick with `rst = 1`, whose step stores nothing (R44); the model shows them by FSM alone (DESIGN CHOICE, log 23). -/
def State.outPorts (s : State) : OutPorts :=
  { bufIdx := s.bufIdx, resPin := s.resPin, cfgReq := s.cfgReq, ioAddr := s.ioAddrPort, ioWdata := s.ioWdata,
    ioWe := s.ioWe, gieWe := s.gieWe, gieWdata := s.gieWdata, busy := s.busy, done := s.doneFlag, ok := s.ok,
    err := errCode s.err }

end Sys2Proof.Machine
end

