-- ==== Sys2Proof/Machine/Engine.lean ====
section
/-! DEFINITION. The Bit Transmission Engine (44_bit_engine.md R153 to R168). Counters are 16 or 4 bits and wrap outside
the reachable range; comparisons are of exact numbers (R11, R170; log 16). -/

namespace Sys2Proof.Machine

/-- PRELOAD (R153): zero test, first fetch. -/
def execPreload (s : State) : Host.Outcome State Fault Refusal :=
  if s.remain = 0 then .next { s.succeed with ptr := 0, fsm := .release }
  else
    .next { s with
      shreg := s.bufByte 0, ptr := 1, bitcnt := 8, tcnt := 0, fsm := .driveHigh, draws := s.drawsAfterRead 0 }

/-- DRIVE_HIGH (R155): read the port, OR the mask in, write back. -/
def execDriveHigh (s : State) : Host.Outcome State Fault Refusal :=
  let v := s.ioRead s.ioaddr ||| s.mask
  .next { s.ioWrite s.ioaddr v with portval := v, tcnt := 1, fsm := .extract }

/-- EXTRACT (R157): shift the highest bit out and choose the branch. -/
def execExtract (s : State) : Host.Outcome State Fault Refusal :=
  let b := topBit s.shreg
  .next { s with
    curbit := b
    shreg := shiftOut s.shreg
    tcnt := 2
    fsm := if s.cfg.th b = 2 then .driveLow else if b then .branchOne else .branchZero }

/-- BRANCH_ZERO (R159): filler until `T0H`. -/
def execBranchZero (s : State) : Host.Outcome State Fault Refusal :=
  .next { s with tcnt := s.tcnt + 1, fsm := if s.tcnt.toNat + 1 = s.cfg.t0h then .driveLow else .branchZero }

/-- BRANCH_ONE (R160): filler until `T1H`. -/
def execBranchOne (s : State) : Host.Outcome State Fault Refusal :=
  .next { s with tcnt := s.tcnt + 1, fsm := if s.tcnt.toNat + 1 = s.cfg.t1h then .driveLow else .branchOne }

/-- DRIVE_LOW (R162): XOR the mask out of the saved port value and write it, without a read. -/
def execDriveLow (s : State) : Host.Outcome State Fault Refusal :=
  let v := s.portval ^^^ s.mask
  .next { s.ioWrite s.ioaddr v with
    portval := v
    tcnt := s.tcnt + 1
    fsm := if s.tcnt.toNat + 2 = s.cfg.tbit then .decideContinue else .fillLow }

/-- FILL_LOW (R164): filler until the last tick of the slot. -/
def execFillLow (s : State) : Host.Outcome State Fault Refusal :=
  .next { s with tcnt := s.tcnt + 1, fsm := if s.tcnt.toNat + 2 = s.cfg.tbit then .decideContinue else .fillLow }

/-- DECIDE (R168): counters, loop tests, next fetch. -/
def execDecide (s : State) : Host.Outcome State Fault Refusal :=
  if s.bitcnt ≠ 1 then .next { s with tcnt := 0, bitcnt := s.bitcnt - 1, fsm := .driveHigh }
  else if s.remain - 1 = 0 then .next { s.succeed with tcnt := 0, remain := s.remain - 1, fsm := .release }
  else
    .next { s with
      tcnt := 0
      remain := s.remain - 1
      shreg := s.bufByte s.ptr.toNat
      ptr := s.ptr + 1
      bitcnt := 8
      fsm := .driveHigh
      draws := s.drawsAfterRead s.ptr.toNat }

end Sys2Proof.Machine
end

