-- ==== Sys2Proof/Machine/FrameLatch.lean ====
section
/-! DEFINITION. LATCH (45_frame_latch.md R191). -/

namespace Sys2Proof.Machine

/-- LATCH: count `LATCH_TICKS`. -/
def execLatch (s : State) : Host.Outcome State Fault Refusal :=
  .next { s with tcnt := s.tcnt + 1, fsm := if s.tcnt.toNat + 1 = s.cfg.latchTicks then .done else .latch }

end Sys2Proof.Machine
end

