-- ==== Sys2Proof/Machine/Guard.lean ====
section
/-! DEFINITION. ACQUIRE and RELEASE (43_interrupt_guard.md R141, R143). -/

namespace Sys2Proof.Machine

/-- ACQUIRE: save the flag and clear it, in one step. -/
def execAcquire (s : State) : Host.Outcome State Fault Refusal :=
  .next { s with token := s.gie, gie := false, fsm := .resolve }

/-- RELEASE: restore the flag; no latch after a resolution failure. -/
def execRelease (s : State) : Host.Outcome State Fault Refusal :=
  if s.err = .noError then .next { s with gie := s.token, tcnt := 0, fsm := .latch }
  else .next { s with gie := s.token, fsm := .done }

end Sys2Proof.Machine
end

