-- ==== Sys2Proof/Machine/Orchestration.lean ====
section
/-! DEFINITION. IDLE and DONE (46_orchestration.md R201, R203). -/

namespace Sys2Proof.Machine

/-- IDLE (46_orchestration.md R201): accept the request on the ports, or wait. A request whose buffer is too short is
refused (20_memory.md R67, U3; log 7). -/
def execIdle (s : State) : Host.Outcome State Fault Refusal :=
  if s.ports.start then
    if s.bufferServes s.ports.reqLen then
      .next { s.clearResult with len := s.ports.reqLen, pin := s.ports.reqPin, fsm := .validate }
    else .refused .shortBuffer
  else .next s

/-- DONE (46_orchestration.md R203). -/
def execDone (s : State) : Host.Outcome State Fault Refusal := .next s.returnToIdle

end Sys2Proof.Machine
end

