-- ==== Sys2Proof/Machine/Resolver.lean ====
section
/-! DEFINITION. PININIT and RESOLVE (42_pin_resolver.md R133, R134). -/

namespace Sys2Proof.Machine

/-- PININIT: the set-up service on `PIN`. -/
def execPininit (s : State) : Host.Outcome State Fault Refusal :=
  .next { s.pinConfigOutLow s.pin with fsm := .acquire }

/-- RESOLVE: latch the target, or raise PinResolutionError. -/
def execResolve (s : State) : Host.Outcome State Fault Refusal :=
  match s.resolve s.pin with
  | some r => .next { s with ioaddr := r.addr, mask := bitMask r.bit, fsm := .preload }
  | none => .next (s.raise .pinResolution .release)

end Sys2Proof.Machine
end

