-- ==== Sys2Proof/Machine/Validator.lean ====
section
/-! DEFINITION. VALIDATE (41_validator.md R121, R122). -/

namespace Sys2Proof.Machine

/-- VALIDATE: the exact product `LEN * 3` against 65535. -/
def execValidate (s : State) : Host.Outcome State Fault Refusal :=
  if lengthFits s.len then .next { s with remain := BitVec.ofNat 16 (wireBytes s.len), fsm := .pininit }
  else .next (s.raise .tooManyPixels .done)

end Sys2Proof.Machine
end

