-- ==== Sys2Proof/Machine/Wire.lean ====
section
/-! DEFINITION. The wire symbols (30_encoding.md R94, R95), the frame function (R96) and the reference receiver
(R101). -/

namespace Sys2Proof.Machine

open Sys2Proof (Byte Config)

/-- A pulse on the strip's line: HIGH for `th` ticks, then LOW for the rest of the bit period (R94; log 12). -/
def State.pulse (s : State) (th : Nat) : State :=
  (((s.driveLine true).hold th).driveLine false).hold (s.cfg.tbit - th)

/-- SYM0: the symbol of a 0 bit (R94). -/
def execSym0 (s : State) : Host.Outcome State Fault Refusal := .next (s.pulse s.cfg.t0h)

/-- SYM1: the symbol of a 1 bit (R94). -/
def execSym1 (s : State) : Host.Outcome State Fault Refusal := .next (s.pulse s.cfg.t1h)

/-- LATCHSYM: the line LOW for `LATCH_TICKS` ticks (R95, R191). -/
def execLatchsym (s : State) : Host.Outcome State Fault Refusal :=
  .next ((s.driveLine false).hold s.cfg.latchTicks)

/-- `Sym(b)` (R96): a bit's levels, first tick first. -/
def symWave (c : Config) (b : Bool) : List Bool :=
  List.replicate (c.th b) true ++ List.replicate (c.tl b) false

/-- `ByteWave(B)` (R96). -/
def byteWave (c : Config) (b : Byte) : List Bool := (byteBits b).flatMap (symWave c)

/-- `Wave(bs)` (R96). -/
def frameWave (c : Config) (bytes : List Byte) : List Bool := bytes.flatMap (byteWave c)

/-- The record of the line in time order (the field `wave` has the newest sample first). -/
def State.trace (s : State) : List Bool := s.wave.reverse

/-- A waveform as runs of one level (00_scope.md R13). -/
def levelRuns : List Bool → List (Bool × Nat)
  | [] => []
  | b :: rest =>
    match levelRuns rest with
    | [] => [(b, 1)]
    | (c, n) :: more => if b = c then (c, n + 1) :: more else (b, 1) :: (c, n) :: more

/-- What the reference receiver makes of a run (R101). -/
inductive RxItem where
  | bit (value : Bool)
  | invalid
  | frameEnd
  deriving DecidableEq, Repr

/-- Is a duration within the tolerance of a nominal one (R101)? -/
def withinTol (c : Config) (ns nominal : Nat) : Bool :=
  decide (ns ≤ nominal + c.tolNs) && decide (nominal ≤ ns + c.tolNs)

/-- A HIGH run is a 0, a 1 or invalid; a LOW run ends the frame when it is long enough and separates two bits
otherwise (R101). -/
def receiveRun (c : Config) : Bool × Nat → List RxItem
  | (true, n) =>
    if withinTol c (n * c.tickNs) Config.t0hNs then [.bit false]
    else if withinTol c (n * c.tickNs) Config.t1hNs then [.bit true]
    else [.invalid]
  | (false, n) => if Config.latchNs ≤ n * c.tickNs then [.frameEnd] else []

/-- The reference receiver on a waveform in time order (R101; an assumption of the spec, D14, log 22). -/
def receive (c : Config) (levels : List Bool) : List RxItem := (levelRuns levels).flatMap (receiveRun c)

end Sys2Proof.Machine
end

