-- ==== Sys2Proof/Machine/Call.lean ====
section
/-! DEFINITION. One tick of the block (46_orchestration.md R204) and the host's blocking command SETSTRIPE (R200,
R206, R212). -/

namespace Sys2Proof.Machine

open Sys2Proof (Byte Half Fsm Config)

/-- The operation each state performs (46_orchestration.md R204). -/
def runOp : Fsm → State → Host.Outcome State Fault Refusal
  | .idle, s => execIdle s
  | .validate, s => execValidate s
  | .pininit, s => execPininit s
  | .acquire, s => execAcquire s
  | .resolve, s => execResolve s
  | .preload, s => execPreload s
  | .driveHigh, s => execDriveHigh s
  | .extract, s => execExtract s
  | .branchZero, s => execBranchZero s
  | .branchOne, s => execBranchOne s
  | .driveLow, s => execDriveLow s
  | .fillLow, s => execFillLow s
  | .decideContinue, s => execDecide s
  | .release, s => execRelease s
  | .latch, s => execLatch s
  | .done, s => execDone s

/-- The chain samples the state a tick leads to (00_scope.md R8; log 15). -/
def sampled : Host.Outcome State Fault Refusal → Host.Outcome State Fault Refusal
  | .next t => .next t.sample
  | .fault f => .fault f
  | .refused r => .refused r

/-- One tick (46_orchestration.md R204): reset has priority, else the operation FSM names; then the chain samples. -/
def clock (op : Fsm → State → Host.Outcome State Fault Refusal) (s : State) : Host.Outcome State Fault Refusal :=
  sampled (if s.ports.rst then .next s.resetBlock else op s.fsm s)

/-- The number of steps of a successful call, accepting step and return to IDLE included (46_orchestration.md R206). -/
def callTicks (c : Config) (length : Half) : Nat := 8 + c.latchTicks + 8 * wireBytes length * c.tbit

/-- The host raises `start` with a request on the ports (10_state.md R45). -/
def State.present (s : State) (length : Half) (pin : Byte) : State :=
  { s with ports := { s.ports with start := true, reqLen := length, reqPin := pin } }

/-- The host drops `start` after the tick in which the request was sampled. -/
def State.withdraw (s : State) : State := { s with ports := { s.ports with start := false } }

/-- Ticks until the block is in IDLE, at most `fuel` of them: the host waits (46_orchestration.md R212). -/
def untilIdle : Nat → State → Host.Outcome State Fault Refusal
  | 0, s => if s.fsm = .idle then .next s else .fault .callNeverReturned
  | fuel + 1, s =>
    if s.fsm = .idle then .next s
    else
      match clock runOp s with
      | .next t => untilIdle fuel t
      | .fault f => .fault f
      | .refused r => .refused r

/-- SETSTRIPE (46_orchestration.md R200): the request is presented for one tick. If the block was in IDLE it is
accepted and the host waits through the eight steps until the block is back in IDLE (R206, R212; log 10, log 11); if
the block was busy the request is not sampled and that one tick is all that happens (R201). -/
def execSetstripe (length : Half) (pin : Byte) (s : State) : Host.Outcome State Fault Refusal :=
  match clock runOp (s.present length pin) with
  | .next t =>
    if s.fsm = .idle then untilIdle (callTicks s.cfg length - 1) t.withdraw else .next t.withdraw
  | .fault f => .fault f
  | .refused r => .refused r

end Sys2Proof.Machine
end

