-- ==== Sys2Proof/Machine/Dispatch.lean ====
section
/-! DEFINITION. One arm per constructor of Instr. -/

namespace Sys2Proof.Machine

open Sys2Proof (Instr)

def exec (i : Instr) (s : State) : Host.Outcome State Fault Refusal :=
  match i with
  | .setstripe length pin => Sys2Proof.Machine.execSetstripe length pin s
  | .sym0 => Sys2Proof.Machine.execSym0 s
  | .sym1 => Sys2Proof.Machine.execSym1 s
  | .latchsym => Sys2Proof.Machine.execLatchsym s
  | .idle => Sys2Proof.Machine.execIdle s
  | .validate => Sys2Proof.Machine.execValidate s
  | .pininit => Sys2Proof.Machine.execPininit s
  | .acquire => Sys2Proof.Machine.execAcquire s
  | .resolve => Sys2Proof.Machine.execResolve s
  | .preload => Sys2Proof.Machine.execPreload s
  | .driveHigh => Sys2Proof.Machine.execDriveHigh s
  | .extract => Sys2Proof.Machine.execExtract s
  | .branchZero => Sys2Proof.Machine.execBranchZero s
  | .branchOne => Sys2Proof.Machine.execBranchOne s
  | .driveLow => Sys2Proof.Machine.execDriveLow s
  | .fillLow => Sys2Proof.Machine.execFillLow s
  | .decideContinue => Sys2Proof.Machine.execDecide s
  | .release => Sys2Proof.Machine.execRelease s
  | .latch => Sys2Proof.Machine.execLatch s
  | .done => Sys2Proof.Machine.execDone s

end Sys2Proof.Machine
end

