-- ==== Sys2Proof/Machine/Step.lean ====
section
/-! DEFINITION. One step: the oldest entry of the agenda, or, with an empty agenda, a tick with the ports held
(log 13, log 14). -/

namespace Sys2Proof.Machine

open Sys2Proof (Fsm Instr Byte decodeTableWord)

/-- The row of a wire symbol. -/
def Symbol.instr : Symbol → Instr
  | .zero => .sym0
  | .one => .sym1
  | .latch => .latchsym

/-- One tick of the block: the operation that FSM decodes to (46_orchestration.md R204). -/
def tick (s : State) : Host.Outcome State Fault Refusal := clock (fun f => exec f.instr) s

/-- One step. An illegal parameter set is refused (U10, U15; log 9). A call binds its buffer only
when the block can sample it (log 10). -/
def step (s : State) : Host.Outcome State Fault Refusal :=
  if s.cfg.wf then
    match s.agenda with
    | [] => tick s
    | .tick input :: rest => tick ({ s with agenda := rest }.applyInput input)
    | .call length pin pixels :: rest => exec (.setstripe length pin) ({ s with agenda := rest }.bindBuffer pixels)
    | .wire symbol :: rest => exec symbol.instr { s with agenda := rest }
  else .refused .badConfiguration

/-- A state whose next step runs an operation of the block: FSM names it, and the next entry of the agenda is a tick
without reset or environment moves. -/
def State.withOp (s : State) (f : Fsm) : State :=
  { s with fsm := f, agenda := .tick { ports := { s.ports with rst := false }, moves := [] } :: s.agenda }

/-- A buffer of at least `n` bytes: the bound one, with zero bytes after it where it is shorter (R264(a); log 19). -/
def padTo : Nat → List Byte → List Byte
  | 0, l => l
  | n + 1, [] => 0 :: padTo n []
  | n + 1, b :: rest => b :: padTo n rest

/-- The state in which the next step runs the instruction of a table row (log 19). A request is put on the agenda with
a buffer long enough for it, the block in IDLE; a symbol is put on the agenda; a state code is put in FSM. -/
def State.withFetchWord (s : State) (nbits w : Nat) : State :=
  match decodeTableWord nbits w with
  | some (.setstripe length pin) =>
    { s with
      fsm := .idle
      ports := { s.ports with rst := false }
      agenda := .call length pin (if lengthFits length then padTo (wireBytes length) s.buf else s.buf) :: s.agenda }
  | some .sym0 => { s with agenda := .wire .zero :: s.agenda }
  | some .sym1 => { s with agenda := .wire .one :: s.agenda }
  | some .latchsym => { s with agenda := .wire .latch :: s.agenda }
  | some .idle => s.withOp .idle
  | some .validate => s.withOp .validate
  | some .pininit => s.withOp .pininit
  | some .acquire => s.withOp .acquire
  | some .resolve => s.withOp .resolve
  | some .preload => s.withOp .preload
  | some .driveHigh => s.withOp .driveHigh
  | some .extract => s.withOp .extract
  | some .branchZero => s.withOp .branchZero
  | some .branchOne => s.withOp .branchOne
  | some .driveLow => s.withOp .driveLow
  | some .fillLow => s.withOp .fillLow
  | some .decideContinue => s.withOp .decideContinue
  | some .release => s.withOp .release
  | some .latch => s.withOp .latch
  | some .done => s.withOp .done
  | none => s

end Sys2Proof.Machine
end

