-- ==== Sys2Proof/Machine/Observe.lean ====
section
/-! DEFINITION. What is observed of a call (00_scope.md R9), as functions of a run of single steps from `σ_0`, for
whatever pin the request names. (The field `wave` of State is another record: what the chain's own pin shows.) -/

namespace Sys2Proof.Machine

open Sys2Proof (Byte Half)

/-- The states `σ_0, σ_1, ...` of a run, `n` of them, fewer where the run stops (00_scope.md R8). -/
def visited : Nat → State → List State
  | 0, _ => []
  | n + 1, s =>
    s :: match step s with
      | .next t => visited n t
      | .fault _ => []
      | .refused _ => []

/-- `PinLevel` of a logical pin; none for a pin that does not resolve (10_state.md R37, 46_orchestration.md R209). -/
def State.pinLevel (s : State) (pin : Byte) : Option Bool := (s.resolve pin).map s.level

/-- R9 (a): the waveform `W` on the named pin in the first `n` states, `σ_0` included. -/
def waveform (pin : Byte) (n : Nat) (s : State) : List Bool := (visited n s).filterMap fun u => u.pinLevel pin

/-- R9 (b): GIE in the first `n` states. -/
def gieSequence (n : Nat) (s : State) : List Bool := (visited n s).map fun u => u.gie

/-- R9 (c): the result pairs in the states among the first `n` where `done = 1`. -/
def resultsAtDone (n : Nat) (s : State) : List (Bool × BitVec 2) :=
  (visited n s).filterMap fun u => if u.doneFlag then some u.result else none

/-- R9 (e): the buffer indices read in the first `n` steps. -/
def readIndices (n : Nat) (s : State) : List Half := (visited n s).filterMap State.readIndex

end Sys2Proof.Machine
end

