-- ==== Sys2Proof/Safety.lean ====
section
/-! DEFINITION. What counts as a safe run, in the terms the statements use: runs of ticks, the premises on other agents
(70_reset_and_hazards.md R267 to R272), the state graph (46_orchestration.md R205), the engine's invariant
(44_bit_engine.md R174) and the canonical forms. -/

namespace Sys2Proof.Safety

open Sys2Proof Sys2Proof.Machine

/-- `n` steps of the machine. -/
def steps (n : Nat) (s : State) : Host.Outcome State Fault Refusal := Host.Core.run Sys2Proof.core n s

/-- An outcome's next state changed by a function; a stop stays as it is. -/
def onNext (g : State → State) : Host.Outcome State Fault Refusal → Host.Outcome State Fault Refusal
  | .next t => .next (g t)
  | .fault f => .fault f
  | .refused r => .refused r

/-- The next state of an outcome, if it has one. -/
def nextOf : Host.Outcome State Fault Refusal → Option State
  | .next t => some t
  | .fault _ => none
  | .refused _ => none

/-- No other agent moves (R268 to R270) and no reset is asserted (R262): the premise of every statement on a run. -/
def Undisturbed (s : State) : Prop := s.cfg.wf = true ∧ s.agenda = [] ∧ s.ports.rst = false

/-- The host can call SETSTRIPE: the block is idle, no reset is asserted, the parameters are legal and the buffer holds
the request's bytes unless the validator refuses the length (R67, R90, R264). -/
def MayCall (s : State) (length : Half) : Prop :=
  s.cfg.wf = true ∧ s.fsm = .idle ∧ s.ports.rst = false ∧
    (length.toNat ≤ Config.maxPixels → 3 * length.toNat ≤ s.buf.length)

/-- Exactly one of the `PORT_W` bits of a mask is set, and no other (10_state.md R31). -/
def OneHot (c : Config) (m : Nat) : Prop := ∃ b : Nat, b < c.portW ∧ ∀ i : Nat, m.testBit i = decide (i = b)

/-- The successor of a state: the table of 46_orchestration.md R205. -/
def successor (s : State) : Fsm :=
  match s.fsm with
  | .idle => if s.ports.start then .validate else .idle
  | .validate => if s.len.toNat ≤ 21845 then .pininit else .done
  | .pininit => .acquire
  | .acquire => .resolve
  | .resolve => if (s.resolve s.pin).isSome then .preload else .release
  | .preload => if s.remain.toNat ≠ 0 then .driveHigh else .release
  | .driveHigh => .extract
  | .extract =>
    if s.shreg.getLsbD 7 then (if s.cfg.t1h = 2 then .driveLow else .branchOne)
    else (if s.cfg.t0h = 2 then .driveLow else .branchZero)
  | .branchZero => if s.tcnt.toNat + 1 = s.cfg.t0h then .driveLow else .branchZero
  | .branchOne => if s.tcnt.toNat + 1 = s.cfg.t1h then .driveLow else .branchOne
  | .driveLow => if s.tcnt.toNat + 1 = s.cfg.tbit - 1 then .decideContinue else .fillLow
  | .fillLow => if s.tcnt.toNat + 1 = s.cfg.tbit - 1 then .decideContinue else .fillLow
  | .decideContinue => if s.bitcnt.toNat ≠ 1 ∨ s.remain.toNat ≠ 1 then .driveHigh else .release
  | .release => if s.err = .noError then .latch else .done
  | .latch => if s.tcnt.toNat + 1 = s.cfg.latchTicks then .done else .latch
  | .done => .idle

/-- A port value with one bit LOW and every neighbour kept (42_pin_resolver.md R132, 20_memory.md R69). -/
def LowAt (bit : Nat) (old new : Nat) : Prop := ∀ i : Nat, new.testBit i = (old.testBit i && decide (i ≠ bit))

/-- The steps of a successful call, accepting step and return to IDLE included (46_orchestration.md R206). -/
def successSteps (s : State) (length : Half) : Nat := 8 + s.cfg.latchTicks + 8 * (3 * length.toNat) * s.cfg.tbit

/-- What holds in every state of the engine (44_bit_engine.md R174). -/
def InEngine (s : State) : Prop :=
  s.err = .noError ∧ s.ok = false ∧ OneHot s.cfg s.mask ∧ 1 ≤ s.bitcnt.toNat ∧ s.bitcnt.toNat ≤ 8 ∧ 1 ≤ s.remain.toNat

/-- The invariant of a call, state by state: the engine's invariants of 44_bit_engine.md R174, the latch count
(10_state.md R29) and the agreement of `OK` and `ERR` at the end of a call (R35, 30_encoding.md R99). -/
def CallInv (s : State) : Prop :=
  match s.fsm with
  | .idle => True
  | .validate | .pininit | .acquire | .resolve => s.err = .noError ∧ s.ok = false
  | .preload => s.err = .noError ∧ s.ok = false ∧ OneHot s.cfg s.mask
  | .driveHigh => InEngine s ∧ s.tcnt.toNat = 0
  | .extract => InEngine s ∧ s.tcnt.toNat = 1 ∧ s.portval &&& s.mask = s.mask
  | .branchZero =>
    InEngine s ∧ 2 ≤ s.tcnt.toNat ∧ s.tcnt.toNat < s.cfg.t0h ∧ s.curbit = false ∧ s.portval &&& s.mask = s.mask
  | .branchOne =>
    InEngine s ∧ 2 ≤ s.tcnt.toNat ∧ s.tcnt.toNat < s.cfg.t1h ∧ s.curbit = true ∧ s.portval &&& s.mask = s.mask
  | .driveLow => InEngine s ∧ s.tcnt.toNat = s.cfg.th s.curbit ∧ s.portval &&& s.mask = s.mask
  | .fillLow =>
    InEngine s ∧ s.cfg.th s.curbit < s.tcnt.toNat ∧ s.tcnt.toNat + 1 < s.cfg.tbit ∧ s.portval &&& s.mask = 0
  | .decideContinue => InEngine s ∧ s.tcnt.toNat + 1 = s.cfg.tbit ∧ s.portval &&& s.mask = 0
  | .release => s.ok = decide (s.err = .noError)
  | .latch => s.err = .noError ∧ s.ok = true ∧ s.tcnt.toNat < s.cfg.latchTicks
  | .done => s.ok = decide (s.err = .noError)

/-- The I/O space and the pin-direction set are in their canonical forms, and whatever holds an address, a port value or
a pin fits the width the parameters give it (10_state.md R30 to R32, R37, R39). -/
structure Canonical (s : State) : Prop where
  io : Memory.wf s.cfg s.io
  outmode : PinSet.wf s.outmode
  pins : ∀ p ∈ s.outmode, s.cfg.pinFits p = true
  ioaddr : s.cfg.addrFits s.ioaddr = true
  mask : s.cfg.wordFits s.mask = true
  portval : s.cfg.wordFits s.portval = true

/-- The window in which the guard is held: between the ACQUIRE step and the RELEASE step (43_interrupt_guard.md R144,
R145). -/
def Guarded (f : Fsm) : Prop :=
  f = .resolve ∨ f = .preload ∨ f = .driveHigh ∨ f = .extract ∨ f = .branchZero ∨ f = .branchOne ∨ f = .driveLow ∨
    f = .fillLow ∨ f = .decideContinue ∨ f = .release

end Sys2Proof.Safety
end

