-- ==== Sys2Proof/Certificates/Slice0/Obligations.lean ====
section
/-! DEFINITION. The statements for the provers. Each docstring names the rule of spec/ it formalises. -/

open Sys2Proof Sys2Proof.Machine Sys2Proof.Safety

/-! ## Reset, stepping, encodings -/

/-- 10_state.md R44 (the spec's decision D4). State.reset's other values are the model's and are not stated. -/
def Obligations.ResetClearsFsmAndResultOnly : Prop :=
  (State.reset.fsm = .idle ∧ State.reset.err = .noError ∧ State.reset.ok = false ∧
    State.reset.busy = false ∧ State.reset.doneFlag = false ∧ State.reset.result = (false, 0#2)) ∧
  ∀ s : State, s.cfg.wf = true → s.agenda = [] → s.ports.rst = true →
    ∃ t, step s = .next t ∧ t.fsm = .idle ∧ t.err = .noError ∧ t.ok = false ∧ t.busy = false ∧ t.doneFlag = false ∧
      (∀ a, t.ioRead a = s.ioRead a) ∧ t.gie = s.gie ∧ t.outmode = s.outmode ∧ t.buf = s.buf ∧ t.cfg = s.cfg ∧
      t.ports = s.ports

/-- 10_state.md R44, 70_reset_and_hazards.md R260, R262: the tick in which reset is raised, in whatever state it falls.
That the environment's moves of that tick land first is the model's choice (log 13). -/
def Obligations.ResetInputResetsTheBlock : Prop :=
  ∀ (s : State) (input : TickInput) (rest : List Event), s.cfg.wf = true → s.agenda = .tick input :: rest →
    input.ports.rst = true → ∀ u, u = { s with agenda := rest }.applyInput input →
      ∃ t, step s = .next t ∧ t.fsm = .idle ∧ t.err = .noError ∧ t.ok = false ∧ t.busy = false ∧ t.doneFlag = false ∧
        (∀ a, t.ioRead a = u.ioRead a) ∧ t.gie = u.gie ∧ t.outmode = u.outmode ∧ t.buf = u.buf ∧ t.cfg = s.cfg ∧
        t.ports = input.ports ∧ t.agenda = rest

/-- 46_orchestration.md R204, 10_state.md R21: a step runs the operation FSM decodes to; a call and a wire symbol run
the row their code decodes to. What the step adds is the model's (log 10, log 13, log 15): the inputs of the tick come
first, a call that cannot be sampled binds no buffer, and the chain samples the state reached. -/
def Obligations.StepRunsTheDecodedInstruction : Prop :=
  ∀ s : State, s.cfg.wf = true →
    (s.agenda = [] → s.ports.rst = false → ∀ i, decode s.cfg s.fsm.codeWord = some i → step s = sampled (exec i s)) ∧
    (∀ input rest, s.agenda = .tick input :: rest → input.ports.rst = false →
      ∀ u, u = { s with agenda := rest }.applyInput input →
        u.fsm = s.fsm ∧ u.ports = input.ports ∧ u.agenda = rest ∧
          ∀ i, decode s.cfg s.fsm.codeWord = some i → step s = sampled (exec i u)) ∧
    (∀ len pin pixels rest, s.agenda = .call len pin pixels :: rest →
      ∀ i, decode s.cfg ⟨.request, 24, requestWord len pin⟩ = some i → i = .setstripe len pin ∧
        (s.fsm = .idle → s.ports.rst = false → step s = exec i { s with agenda := rest, buf := pixels }) ∧
        (s.fsm ≠ .idle ∨ s.ports.rst = true → step s = exec i { s with agenda := rest })) ∧
    (∀ symbol rest, s.agenda = .wire symbol :: rest →
      ∀ i, decode s.cfg (encode s.cfg symbol.instr) = some i →
        i = symbol.instr ∧ step s = exec i { s with agenda := rest })

/-- 30_encoding.md R90, R94, R98: codes written out from the spec's tables decode to their rows. -/
def Obligations.WrittenOutCodesDecode : Prop :=
  decode Config.default ⟨.request, 24, 0x0D0001⟩ = some (.setstripe 1 13) ∧
  decode Config.default ⟨.request, 24, 0x0D5556⟩ = some (.setstripe 21846 13) ∧
  decode Config.default ⟨.wire, 25, 0b1111111000000000000000000⟩ = some .sym0 ∧
  decode Config.default ⟨.wire, 25, 0b1111111111111111110000000⟩ = some .sym1 ∧
  decode Config.default ⟨.wire, 1000, 0⟩ = some .latchsym ∧
  decode Config.default ⟨.fsm, 4, 0b0000⟩ = some .idle ∧
  decode Config.default ⟨.fsm, 4, 0b0110⟩ = some .driveHigh ∧
  decode Config.default ⟨.fsm, 4, 0b1011⟩ = some .fillLow ∧
  decode Config.default ⟨.fsm, 4, 0b1101⟩ = some .release ∧
  decode Config.default ⟨.fsm, 4, 0b1111⟩ = some .done ∧
  decode Config.default ⟨.wire, 25, 0b1111111100000000000000000⟩ = none

/-- Under every parameter set, decoding an encoded well-formed instruction gives it back, with every operand. -/
def Obligations.DecodeOfEncodeIsTheInstruction : Prop :=
  ∀ (c : Config) (i : Instr), c.wf = true → i.wf c = true → decode c (encode c i) = some i

/-- Every code that decodes is the encoding of what it decodes to: nothing falls through to a neighbour. -/
def Obligations.OnlyEncodingsDecode : Prop :=
  ∀ (c : Config) (w : Code) (i : Instr), c.wf = true → decode c w = some i → encode c i = w

/-- 30_encoding.md R98: all sixteen codes are defined and the code of a state names that state. -/
def Obligations.StateCodesAreTotal : Prop :=
  (∀ f : Fsm, Fsm.ofCode f.code = f) ∧ (∀ k : BitVec 4, (Fsm.ofCode k).code = k) ∧
    ∀ f g : Fsm, f.instr = g.instr → f = g

/-! ## The operations, one by one -/

/-- 46_orchestration.md R201. A request whose buffer is too short is the subject of ShortBufferIsRefused. -/
def Obligations.IdleAcceptsARequestOrWaits : Prop :=
  ∀ s : State,
    (s.ports.start = false → exec .idle s = .next s) ∧
    (s.ports.start = true → (s.ports.reqLen.toNat ≤ 21845 → 3 * s.ports.reqLen.toNat ≤ s.buf.length) →
      exec .idle s =
        .next { s with len := s.ports.reqLen, pin := s.ports.reqPin, err := .noError, ok := false, fsm := .validate }) ∧
    ∀ (f : Fsm) (p : Ports), f ≠ .idle →
      exec f.instr { s with ports := p } = onNext (fun t => { t with ports := p }) (exec f.instr s)

/-- 20_memory.md R67 (the place of the refusal is the model's, log 7). -/
def Obligations.ShortBufferIsRefused : Prop :=
  ∀ s : State, s.ports.start = true → s.ports.reqLen.toNat ≤ 21845 → s.buf.length < 3 * s.ports.reqLen.toNat →
    exec .idle s = .refused .shortBuffer

/-- 41_validator.md R121, R122. -/
def Obligations.ValidateComparesTheExactProduct : Prop :=
  ∀ s : State,
    (s.len.toNat * 3 ≤ 65535 →
      ∃ r : Half, r.toNat = s.len.toNat * 3 ∧ exec .validate s = .next { s with remain := r, fsm := .pininit }) ∧
    (65535 < s.len.toNat * 3 → exec .validate s = .next { s with err := .tooManyPixels, fsm := .done }) ∧
    (65535 < s.len.toNat * 3 ↔ 21846 ≤ s.len.toNat)

/-- 42_pin_resolver.md R132, R133: result and frame. -/
def Obligations.PininitSetsThePinLowAndOutput : Prop :=
  ∀ s : State,
    (s.resolve s.pin = none → exec .pininit s = .next { s with fsm := .acquire }) ∧
    ∀ r, s.resolve s.pin = some r →
      ∃ t, exec .pininit s = .next t ∧ t.fsm = .acquire ∧
        LowAt r.bit (s.ioRead r.addr) (t.ioRead r.addr) ∧
        (∀ a, a ≠ r.addr → t.ioRead a = s.ioRead a) ∧
        (∀ q, q ∈ t.outmode ↔ q ∈ s.outmode ∨ q = r) ∧
        { t with fsm := s.fsm, io := s.io, outmode := s.outmode } = s

/-- 43_interrupt_guard.md R141. -/
def Obligations.AcquireSavesAndClearsInterruptEnable : Prop :=
  ∀ s : State, exec .acquire s = .next { s with token := s.gie, gie := false, fsm := .resolve }

/-- 43_interrupt_guard.md R143. -/
def Obligations.ReleaseRestoresInterruptEnable : Prop :=
  ∀ s : State,
    (s.err = .noError → exec .release s = .next { s with gie := s.token, tcnt := 0, fsm := .latch }) ∧
    (s.err ≠ .noError → exec .release s = .next { s with gie := s.token, fsm := .done })

/-- 42_pin_resolver.md R134, 30_encoding.md R97. -/
def Obligations.ResolveLatchesAOneHotTarget : Prop :=
  ∀ s : State,
    (s.resolve s.pin = none → exec .resolve s = .next { s with err := .pinResolution, fsm := .release }) ∧
    ∀ r, s.resolve s.pin = some r →
      ∃ m : Nat, (∀ i : Nat, m.testBit i = decide (i = r.bit)) ∧
        exec .resolve s = .next { s with ioaddr := r.addr, mask := m, fsm := .preload }

/-- 44_bit_engine.md R153. The clause for an empty buffer is the model's choice (log 8): the operation runs with a free
byte, whose value is left open. -/
def Obligations.PreloadTestsForZeroAndFetches : Prop :=
  ∀ s : State,
    (s.remain = 0 → exec .preload s = .next { s with ptr := 0, ok := true, fsm := .release }) ∧
    (s.remain ≠ 0 → ∀ b rest, s.buf = b :: rest →
      exec .preload s = .next { s with shreg := b, ptr := 1, bitcnt := 8, tcnt := 0, fsm := .driveHigh }) ∧
    (s.remain ≠ 0 → s.buf = [] →
      ∃ b d, exec .preload s =
        .next { s with shreg := b, ptr := 1, bitcnt := 8, tcnt := 0, fsm := .driveHigh, draws := d })

/-- 44_bit_engine.md R155: result and frame. -/
def Obligations.DriveHighSetsThePinBit : Prop :=
  ∀ s : State, ∃ t, exec .driveHigh s = .next t ∧
    t.ioRead s.ioaddr = s.ioRead s.ioaddr ||| s.mask ∧ t.portval = s.ioRead s.ioaddr ||| s.mask ∧
    t.tcnt = 1 ∧ t.fsm = .extract ∧ (∀ a, a ≠ s.ioaddr → t.ioRead a = s.ioRead a) ∧
    { t with io := s.io, portval := s.portval, tcnt := s.tcnt, fsm := s.fsm } = s

/-- 44_bit_engine.md R157. -/
def Obligations.ExtractShiftsOutTheTopBit : Prop :=
  ∀ s : State, ∃ t, exec .extract s = .next t ∧ t.curbit = s.shreg.getLsbD 7 ∧ t.shreg.getLsbD 0 = false ∧
    (∀ i : Nat, i < 7 → t.shreg.getLsbD (i + 1) = s.shreg.getLsbD i) ∧ t.tcnt = 2 ∧
    (s.cfg.th t.curbit = 2 → t.fsm = .driveLow) ∧
    (s.cfg.th t.curbit ≠ 2 → t.fsm = if t.curbit then .branchOne else .branchZero) ∧
    { t with curbit := s.curbit, shreg := s.shreg, tcnt := s.tcnt, fsm := s.fsm } = s

/-- 44_bit_engine.md R159, R160, R164: the three fillers count one tick and leave at their own count. (Where the count
would pass 65535, in states no run reaches, it wraps: log 16.) -/
def Obligations.FillersCountToTheirEdge : Prop :=
  ∀ s : State, ∃ n : Half, (s.tcnt.toNat < 65535 → n.toNat = s.tcnt.toNat + 1) ∧
    exec .branchZero s =
      .next { s with tcnt := n, fsm := if s.tcnt.toNat + 1 = s.cfg.t0h then .driveLow else .branchZero } ∧
    exec .branchOne s =
      .next { s with tcnt := n, fsm := if s.tcnt.toNat + 1 = s.cfg.t1h then .driveLow else .branchOne } ∧
    exec .fillLow s =
      .next { s with tcnt := n, fsm := if s.tcnt.toNat + 2 = s.cfg.tbit then .decideContinue else .fillLow }

/-- 44_bit_engine.md R162: result and frame. The store does not read the port. That TCNT wraps at 65535, in states no run
reaches, is the model's choice (log 16). -/
def Obligations.DriveLowStoresTheSavedValueXorMask : Prop :=
  ∀ s : State, ∃ t, exec .driveLow s = .next t ∧
    t.ioRead s.ioaddr = s.portval ^^^ s.mask ∧ t.portval = s.portval ^^^ s.mask ∧ t.tcnt = s.tcnt + 1 ∧
    t.fsm = (if s.tcnt.toNat + 2 = s.cfg.tbit then .decideContinue else .fillLow) ∧
    (∀ a, a ≠ s.ioaddr → t.ioRead a = s.ioRead a) ∧
    { t with io := s.io, portval := s.portval, tcnt := s.tcnt, fsm := s.fsm } = s

/-- 44_bit_engine.md R168. The model's choices: beyond the buffer the operation runs with a free byte (log 8), and in
states no run reaches BITCNT, REMAIN and PTR wrap (log 16). -/
def Obligations.DecideClosesBothLoops : Prop :=
  ∀ s : State,
    (s.bitcnt ≠ 1 → exec .decideContinue s = .next { s with tcnt := 0, bitcnt := s.bitcnt - 1, fsm := .driveHigh }) ∧
    (s.bitcnt = 1 → s.remain = 1 →
      exec .decideContinue s = .next { s with tcnt := 0, remain := 0, ok := true, fsm := .release }) ∧
    (s.bitcnt = 1 → s.remain ≠ 1 → ∀ b, s.buf[s.ptr.toNat]? = some b →
      exec .decideContinue s = .next { s with
        tcnt := 0, remain := s.remain - 1, shreg := b, ptr := s.ptr + 1, bitcnt := 8, fsm := .driveHigh }) ∧
    (s.bitcnt = 1 → s.remain ≠ 1 → s.buf[s.ptr.toNat]? = none →
      ∃ b d, exec .decideContinue s = .next { s with
        tcnt := 0, remain := s.remain - 1, shreg := b, ptr := s.ptr + 1, bitcnt := 8, fsm := .driveHigh, draws := d })

/-- 45_frame_latch.md R191, one step. That TCNT wraps at 65535, in states no run reaches, is the model's choice
(log 16). -/
def Obligations.LatchCountsOneTick : Prop :=
  ∀ s : State, exec .latch s =
    .next { s with tcnt := s.tcnt + 1, fsm := if s.tcnt.toNat + 1 = s.cfg.latchTicks then .done else .latch }

/-- 46_orchestration.md R203: the return keeps the result readable. -/
def Obligations.DoneReturnsAndKeepsTheResult : Prop :=
  ∀ s : State, ∃ t, exec .done s = .next t ∧ t.busy = false ∧ t.doneFlag = false ∧ t.result = s.result ∧
    { t with fsm := s.fsm } = s

/-- 30_encoding.md R94, R95 on the strip's line (what the row does to the state is the model's choice, log 12). -/
def Obligations.SymbolsPulseTheLine : Prop :=
  ∀ s : State,
    (∃ t, exec .sym0 s = .next t ∧
      t.wave = List.replicate (s.cfg.tbit - s.cfg.t0h) false ++ List.replicate s.cfg.t0h true ++ s.wave ∧
      LowAt s.cfg.strip.bit (s.ioRead s.cfg.strip.addr) (t.ioRead s.cfg.strip.addr) ∧
      (∀ a, a ≠ s.cfg.strip.addr → t.ioRead a = s.ioRead a) ∧ { t with io := s.io, wave := s.wave } = s) ∧
    (∃ t, exec .sym1 s = .next t ∧
      t.wave = List.replicate (s.cfg.tbit - s.cfg.t1h) false ++ List.replicate s.cfg.t1h true ++ s.wave ∧
      LowAt s.cfg.strip.bit (s.ioRead s.cfg.strip.addr) (t.ioRead s.cfg.strip.addr) ∧
      (∀ a, a ≠ s.cfg.strip.addr → t.ioRead a = s.ioRead a) ∧ { t with io := s.io, wave := s.wave } = s) ∧
    (∃ t, exec .latchsym s = .next t ∧
      t.wave = List.replicate s.cfg.latchTicks false ++ s.wave ∧
      LowAt s.cfg.strip.bit (s.ioRead s.cfg.strip.addr) (t.ioRead s.cfg.strip.addr) ∧
      (∀ a, a ≠ s.cfg.strip.addr → t.ioRead a = s.ioRead a) ∧ { t with io := s.io, wave := s.wave } = s)

/-! ## Whole-machine rules on the operations -/

/-- 46_orchestration.md R205: the state graph, with its conditions. -/
def Obligations.OperationsFollowTheStateGraph : Prop :=
  ∀ s t : State, exec s.fsm.instr s = .next t → t.fsm = successor s

/-- 10_state.md R22 to R35, R38, R39: which operation may write which register, FSM apart. -/
def Obligations.RegistersHaveTheirOnlyWriters : Prop :=
  ∀ (f : Fsm) (s t : State), exec f.instr s = .next t →
    (f ≠ .idle → t.len = s.len ∧ t.pin = s.pin) ∧
    (f ≠ .validate → f ≠ .decideContinue → t.remain = s.remain) ∧
    (f ≠ .preload → f ≠ .decideContinue → t.ptr = s.ptr ∧ t.bitcnt = s.bitcnt) ∧
    (f = .idle ∨ f = .validate ∨ f = .pininit ∨ f = .acquire ∨ f = .resolve ∨ f = .done → t.tcnt = s.tcnt) ∧
    (f ≠ .preload → f ≠ .decideContinue → f ≠ .extract → t.shreg = s.shreg) ∧
    (f ≠ .extract → t.curbit = s.curbit) ∧
    (f ≠ .resolve → t.ioaddr = s.ioaddr ∧ t.mask = s.mask) ∧
    (f ≠ .driveHigh → f ≠ .driveLow → t.portval = s.portval) ∧
    (f ≠ .acquire → t.token = s.token) ∧
    (f ≠ .acquire → f ≠ .release → t.gie = s.gie) ∧
    (f ≠ .idle → f ≠ .validate → f ≠ .resolve → t.err = s.err) ∧
    (f ≠ .idle → f ≠ .preload → f ≠ .decideContinue → t.ok = s.ok) ∧
    (f ≠ .pininit → t.outmode = s.outmode)

/-- 20_memory.md R68, 44_bit_engine.md R163: who stores to the I/O space, and where. -/
def Obligations.OnlyTheEdgesAndTheSetUpStoreToIO : Prop :=
  ∀ (f : Fsm) (s t : State), exec f.instr s = .next t →
    (f ≠ .pininit → f ≠ .driveHigh → f ≠ .driveLow → t.io = s.io) ∧
    (f = .driveHigh ∨ f = .driveLow → ∀ a, a ≠ s.ioaddr → t.ioRead a = s.ioRead a) ∧
    (f = .pininit → ∀ a, (∀ r, s.resolve s.pin = some r → a ≠ r.addr) → t.ioRead a = s.ioRead a)

/-- 20_memory.md R66, 10_state.md R40, R41: no row writes the pixel buffer or the configuration, the blocking call
among them; nor the agenda, which is the model's own. -/
def Obligations.NothingWritesTheBufferOrThePinTable : Prop :=
  ∀ (i : Instr) (s t : State), exec i s = .next t → t.buf = s.buf ∧ t.cfg = s.cfg ∧ t.agenda = s.agenda

/-- 20_memory.md R69: the falling edge undoes what another agent wrote to the port since the rising edge, whatever the
state in between, as long as the block's own registers stand; the next rising edge reads afresh. -/
def Obligations.FallingEdgeWritesBackTheRisingRead : Prop :=
  ∀ s u w t : State, exec .driveHigh s = .next u →
    w.portval = u.portval → w.mask = u.mask → w.ioaddr = u.ioaddr → exec .driveLow w = .next t →
      (∀ i : Nat, (t.ioRead s.ioaddr).testBit i = ((s.ioRead s.ioaddr).testBit i && !s.mask.testBit i)) ∧
      ∀ x y : State, x.ioaddr = s.ioaddr → exec .driveHigh x = .next y →
        y.ioRead s.ioaddr = x.ioRead s.ioaddr ||| x.mask

/-- 10_state.md R45: the strobes, data and pin on the output ports are what the operation stores and sets up, and
`buf_idx` is the index of the byte it fetches. -/
def Obligations.OutputPortsShowTheStores : Prop :=
  ∀ s t : State, exec s.fsm.instr s = .next t →
    (s.outPorts.ioWe = true → t.ioRead s.outPorts.ioAddr = s.outPorts.ioWdata ∧
      ∀ a, a ≠ s.outPorts.ioAddr → t.ioRead a = s.ioRead a) ∧
    (s.outPorts.ioWe = false → s.outPorts.cfgReq = false → t.io = s.io) ∧
    (s.outPorts.gieWe = true → t.gie = s.outPorts.gieWdata) ∧ (s.outPorts.gieWe = false → t.gie = s.gie) ∧
    (s.outPorts.cfgReq = false → t.outmode = s.outmode) ∧
    (s.outPorts.cfgReq = true → s.resolve s.outPorts.resPin = none → t.io = s.io ∧ t.outmode = s.outmode) ∧
    (s.outPorts.cfgReq = true → ∀ r, s.resolve s.outPorts.resPin = some r →
      LowAt r.bit (s.ioRead r.addr) (t.ioRead r.addr) ∧ (∀ a, a ≠ r.addr → t.ioRead a = s.ioRead a) ∧
        ∀ q, q ∈ t.outmode ↔ q ∈ s.outmode ∨ q = r) ∧
    (s.shreg ≠ t.shreg → s.fsm = .extract ∨ s.buf[s.outPorts.bufIdx.toNat]? = some t.shreg ∨
      s.buf.length ≤ s.outPorts.bufIdx.toNat)

/-- 44_bit_engine.md R158: the k-th EXTRACT on a byte sends bit 8 - k. -/
def Obligations.ExtractSendsMostSignificantBitFirst : Prop :=
  ∀ (s : State) (b : Byte) (k : Nat), 1 ≤ k → k ≤ 8 → s.shreg = b <<< (k - 1) →
    ∃ t, exec .extract s = .next t ∧ t.curbit = b.getLsbD (8 - k) ∧ t.shreg = b <<< k

/-! ## Steps from every state -/

/-- 60_exceptions.md R233, 46_orchestration.md R206, U10, U15: the machine never faults, and the only runs it does not accept
are an illegal parameter set and a request with a short buffer. -/
def Obligations.StepNeverFaults : Prop :=
  ∀ s : State,
    (∀ f, step s ≠ .fault f) ∧
    (∀ r, step s = .refused r → r = .badConfiguration ∨ r = .shortBuffer) ∧
    (step s = .refused .badConfiguration ↔ s.cfg.wf = false)

/-- 44_bit_engine.md R174, 10_state.md R29, R31, R35: every step, whatever the environment does, keeps the invariant of
a call. -/
def Obligations.StepKeepsTheCallInvariant : Prop :=
  ∀ s t : State, CallInv s → step s = .next t → CallInv t

/-- The invariant of a call holds at reset. -/
def Obligations.ResetMeetsTheCallInvariant : Prop := CallInv State.reset ∧ State.reset.cfg.wf = true

/-- 10_state.md R30 to R32, R37, R39: every step, whatever the environment does, keeps the I/O space and the
pin-direction set in canonical form and every address, port value and pin of its width, for all widths `PORT_W` and
`IOADDR_W`. -/
def Obligations.StepKeepsTheCanonicalForm : Prop :=
  ∀ s t : State, Canonical s → step s = .next t → Canonical t

/-- The canonical forms hold at reset. -/
def Obligations.ResetIsCanonical : Prop := Canonical State.reset

/-- 43_interrupt_guard.md R144: once taken, the guard is held, with its token, until RELEASE gives it back. -/
def Obligations.GuardIsHeldUntilReleased : Prop :=
  ∀ s t : State, Undisturbed s → step s = .next t →
    (s.fsm = .acquire → t.token = s.gie ∧ t.gie = false ∧ Guarded t.fsm) ∧
    (Guarded s.fsm → s.fsm ≠ .release → t.token = s.token ∧ t.gie = s.gie ∧ Guarded t.fsm) ∧
    (s.fsm = .release → t.gie = s.token ∧ ¬ Guarded t.fsm) ∧
    (¬ Guarded s.fsm → s.fsm ≠ .acquire → t.gie = s.gie ∧ ¬ Guarded t.fsm)

/-! ## Runs of ticks -/

/-- 44_bit_engine.md R151, R161, 30_encoding.md R94: a slot is TBIT steps whatever the bit, leaves the neighbours of the
pin as it read them, and puts on the strip's line exactly what SYM0 or SYM1 does. -/
def Obligations.SlotSendsOneSymbol : Prop :=
  ∀ s : State, Undisturbed s → s.fsm = .driveHigh → s.tcnt = 0 → s.bitcnt ≠ 1 →
    s.ioaddr = s.cfg.strip.addr → (∀ i : Nat, s.mask.testBit i = decide (i = s.cfg.strip.bit)) →
    ∃ t u, steps s.cfg.tbit s = .next t ∧ exec (if s.shreg.getLsbD 7 then .sym1 else .sym0) s = .next u ∧
      t.wave = u.wave ∧ (∀ a, t.ioRead a = u.ioRead a) ∧
      t.curbit = s.shreg.getLsbD 7 ∧ t.shreg = s.shreg <<< 1 ∧ LowAt s.cfg.strip.bit (s.ioRead s.ioaddr) t.portval ∧
      { t with io := s.io, wave := s.wave, curbit := s.curbit, shreg := s.shreg, portval := s.portval } =
        { s with bitcnt := s.bitcnt - 1 }

/-- 45_frame_latch.md R191: LATCH lasts LATCH_TICKS steps and writes nothing but TCNT. -/
def Obligations.LatchHoldsForLatchTicks : Prop :=
  ∀ s : State, Undisturbed s → s.fsm = .latch → s.tcnt = 0 →
    ∃ t, steps s.cfg.latchTicks s = .next t ∧ t.tcnt.toNat = s.cfg.latchTicks ∧ t.fsm = .done ∧
      t.wave = List.replicate s.cfg.latchTicks (s.level s.cfg.strip) ++ s.wave ∧
      { t with tcnt := s.tcnt, fsm := s.fsm, wave := s.wave } = s

/-- 46_orchestration.md R200, R206, R212: the blocking call is the run of single steps that starts with the request on
the ports, as many as the chain sampled states, busy at every step but the last. -/
def Obligations.CallIsTheRunOfItsTicks : Prop :=
  ∀ (s : State) (len : Half) (pin : Byte), MayCall s len → s.agenda = [] →
    ∃ t n, exec (.setstripe len pin) s = .next t ∧ t.wave.length = s.wave.length + n ∧
      steps n (s.present len pin) = .next { t with ports := (s.present len pin).ports } ∧
      ∀ k u, 1 ≤ k → k < n → steps k (s.present len pin) = .next u → u.busy = true

/-- 46_orchestration.md R205 to R208, 41_validator.md R121: a refused length. The model's choices in the next state: the
request left on the ports with `start` dropped (log 10), and three samples of the chain's line, the first state of the
four not among them (log 5, log 15). -/
def Obligations.CallRefusesTooManyPixels : Prop :=
  ∀ (s : State) (len : Half) (pin : Byte), MayCall s len → 21846 ≤ len.toNat →
    exec (.setstripe len pin) s = .next { s with
      len := len, pin := pin, err := .tooManyPixels, ok := false
      ports := { s.ports with start := false, reqLen := len, reqPin := pin }
      wave := List.replicate 3 (s.level s.cfg.strip) ++ s.wave }

/-- 46_orchestration.md R209, 42_pin_resolver.md R135: an unresolvable pin. The model's choices in the next state: the
request left on the ports with `start` dropped (log 10), and seven samples of the chain's line, which is not the
request's (log 5, log 15). -/
def Obligations.CallReportsAnUnresolvablePin : Prop :=
  ∀ (s : State) (len : Half) (pin : Byte), MayCall s len → len.toNat ≤ 21845 → s.resolve pin = none →
    ∃ n : Half, n.toNat = 3 * len.toNat ∧
      exec (.setstripe len pin) s = .next { s with
        len := len, pin := pin, remain := n, token := s.gie, err := .pinResolution, ok := false
        ports := { s.ports with start := false, reqLen := len, reqPin := pin }
        wave := List.replicate 7 (s.level s.cfg.strip) ++ s.wave }

/-- 46_orchestration.md R206, R210, R211, 44_bit_engine.md R169: a successful call, with everything it leaves. -/
def Obligations.CallSucceedsForAResolvablePin : Prop :=
  ∀ (s : State) (len : Half) (pin : Byte) (r : PinRef), MayCall s len → len.toNat ≤ 21845 → s.resolve pin = some r →
    ∃ t, exec (.setstripe len pin) s = .next t ∧
      t.fsm = .idle ∧ t.ok = true ∧ t.err = .noError ∧ t.len = len ∧ t.pin = pin ∧
      t.gie = s.gie ∧ t.token = s.gie ∧
      t.remain = 0 ∧ t.ptr.toNat = 3 * len.toNat ∧ t.tcnt.toNat = s.cfg.latchTicks ∧
      t.ioaddr = r.addr ∧ (∀ i : Nat, t.mask.testBit i = decide (i = r.bit)) ∧
      (len ≠ 0 → t.bitcnt = 1 ∧ t.shreg = 0 ∧ LowAt r.bit (s.ioRead r.addr) t.portval) ∧
      (∀ b, len ≠ 0 → s.buf[3 * len.toNat - 1]? = some b → t.curbit = b.getLsbD 0) ∧
      (len = 0 → t.bitcnt = s.bitcnt ∧ t.shreg = s.shreg ∧ t.portval = s.portval ∧ t.curbit = s.curbit) ∧
      LowAt r.bit (s.ioRead r.addr) (t.ioRead r.addr) ∧
      (∀ a, a ≠ r.addr → t.ioRead a = s.ioRead a) ∧
      (∀ q, q ∈ t.outmode ↔ q ∈ s.outmode ∨ q = r) ∧
      t.buf = s.buf ∧ t.cfg = s.cfg ∧ t.draws = s.draws ∧ t.agenda = s.agenda ∧
      t.wave.length = s.wave.length + (8 + s.cfg.latchTicks + 8 * (3 * len.toNat) * s.cfg.tbit)

/-- 30_encoding.md R96, 46_orchestration.md R207, 44_bit_engine.md R173: the waveform of a successful call on the line of
its pin. The chain's record starts one state after the accepting one, so the first of the three prior levels is not on
it (log 15). -/
def Obligations.CallSendsTheFrame : Prop :=
  ∀ (s : State) (len : Half) (pin : Byte), MayCall s len → len.toNat ≤ 21845 → s.resolve pin = some s.cfg.strip →
    ∃ t, exec (.setstripe len pin) s = .next t ∧
      t.trace = s.trace ++ List.replicate 2 (s.level s.cfg.strip) ++ List.replicate 4 false ++
        frameWave s.cfg (s.buf.take (3 * len.toNat)) ++ List.replicate (s.cfg.latchTicks + 2) false

/-- 43_interrupt_guard.md R145, 46_orchestration.md R207: GIE state by state through a successful call. -/
def Obligations.InterruptsAreOffExactlyInTheWindow : Prop :=
  ∀ (s : State) (len : Half) (pin : Byte) (r : PinRef) (n : Nat), MayCall s len → s.agenda = [] → len.toNat ≤ 21845 →
    s.resolve pin = some r → n ≤ 8 + s.cfg.latchTicks + 8 * (3 * len.toNat) * s.cfg.tbit →
    ∃ u, steps n (s.present len pin) = .next u ∧
      u.gie = (if 4 ≤ n ∧ n ≤ 6 + 8 * (3 * len.toNat) * s.cfg.tbit then false else s.gie)

/-- 43_interrupt_guard.md R145: whatever the outcome of a call, GIE is what it was before. -/
def Obligations.CallRestoresInterruptEnable : Prop :=
  ∀ (s : State) (len : Half) (pin : Byte), MayCall s len →
    ∃ t, exec (.setstripe len pin) s = .next t ∧ t.gie = s.gie ∧ t.fsm = .idle ∧
      (t.ok = true ↔ len.toNat ≤ 21845 ∧ (s.resolve pin).isSome = true)

/-- 20_memory.md R65, C7: the fetch of byte i happens in the step 8 * i * TBIT steps after PRELOAD's, which is step 5. -/
def Obligations.BytesAreFetchedOnSchedule : Prop :=
  ∀ (s : State) (len : Half) (pin : Byte) (r : PinRef) (i : Nat) (b : Byte), MayCall s len → s.agenda = [] →
    len.toNat ≤ 21845 → s.resolve pin = some r → i < 3 * len.toNat → s.buf[i]? = some b →
    ∃ u v, steps (5 + 8 * i * s.cfg.tbit) (s.present len pin) = .next u ∧
      u.fsm = (if i = 0 then .preload else .decideContinue) ∧ u.outPorts.bufIdx.toNat = i ∧
      step u = .next v ∧ v.fsm = .driveHigh ∧ v.shreg = b ∧ v.ptr.toNat = i + 1

/-- 10_state.md R42: no register carries information from one call to the next. -/
def Obligations.CallForgetsTheRegistersBefore : Prop :=
  ∀ (s s' : State) (len : Half) (pin : Byte), MayCall s len →
    s' = { s with
      len := s'.len, pin := s'.pin, remain := s'.remain, ptr := s'.ptr, shreg := s'.shreg, bitcnt := s'.bitcnt
      curbit := s'.curbit, tcnt := s'.tcnt, ioaddr := s'.ioaddr, mask := s'.mask, portval := s'.portval
      token := s'.token, err := s'.err, ok := s'.ok } →
    ∃ t t', exec (.setstripe len pin) s = .next t ∧ exec (.setstripe len pin) s' = .next t' ∧
      t.ok = t'.ok ∧ t.err = t'.err ∧ t.io = t'.io ∧ t.gie = t'.gie ∧ t.outmode = t'.outmode ∧ t.wave = t'.wave

/-- 46_orchestration.md R201, 30_encoding.md R100, U6: a request presented while the block is busy is not sampled. That
its buffer is not bound either, and that the call is over after that tick, is the model's reading (log 10). -/
def Obligations.RequestWhileBusyIsLost : Prop :=
  ∀ (s : State) (len : Half) (pin : Byte), s.fsm ≠ .idle → s.ports.rst = false →
    exec (.setstripe len pin) s =
      onNext (fun t => { t with ports := { s.ports with start := false, reqLen := len, reqPin := pin } })
        (sampled (exec s.fsm.instr s)) ∧
    ∀ (pixels : List Byte) (rest : List Event), s.cfg.wf = true →
      step { s with agenda := .call len pin pixels :: rest } = exec (.setstripe len pin) { s with agenda := rest }

/-! ## What is observed of a call (00_scope.md R9) -/

/-- 30_encoding.md R96, 46_orchestration.md R207, 44_bit_engine.md R173, 00_scope.md R9: the waveform on the pin the
request names, whichever it is, from the accepting state to the IDLE state after the call: X3 L4 Wave L(LATCH_TICKS + 2). -/
def Obligations.CallShowsItsWaveformOnItsPin : Prop :=
  ∀ (s : State) (len : Half) (pin : Byte) (r : PinRef), MayCall s len → s.agenda = [] → len.toNat ≤ 21845 →
    s.resolve pin = some r →
    waveform pin (successSteps s len + 1) (s.present len pin) =
      List.replicate 3 (s.level r) ++ List.replicate 4 false ++ frameWave s.cfg (s.buf.take (3 * len.toNat)) ++
        List.replicate (s.cfg.latchTicks + 2) false

/-- 20_memory.md R65, 00_scope.md R9: a successful call reads each index of its bytes once, in ascending order, and no
other; a failed call reads none. -/
def Obligations.CallReadsEachIndexOnce : Prop :=
  ∀ (s : State) (len : Half) (pin : Byte), MayCall s len → s.agenda = [] →
    (len.toNat ≤ 21845 → (s.resolve pin).isSome = true →
      readIndices (successSteps s len) (s.present len pin) = (List.range (3 * len.toNat)).map (BitVec.ofNat 16)) ∧
    (len.toNat ≤ 21845 → s.resolve pin = none → readIndices 7 (s.present len pin) = []) ∧
    (21846 ≤ len.toNat → readIndices 3 (s.present len pin) = [])

/-- 46_orchestration.md R208, R209: what the two failures show, state by state to the IDLE state after the call. -/
def Obligations.FailedCallsShowTheirSchedule : Prop :=
  ∀ (s : State) (len : Half) (pin : Byte), MayCall s len → s.agenda = [] →
    (21846 ≤ len.toNat →
      (visited 4 (s.present len pin)).map State.fsm = [.idle, .validate, .done, .idle] ∧
      (∀ r, s.resolve pin = some r → waveform pin 4 (s.present len pin) = List.replicate 4 (s.level r)) ∧
      gieSequence 4 (s.present len pin) = List.replicate 4 s.gie) ∧
    (len.toNat ≤ 21845 → s.resolve pin = none →
      (visited 8 (s.present len pin)).map State.fsm =
        [.idle, .validate, .pininit, .acquire, .resolve, .release, .done, .idle] ∧
      waveform pin 8 (s.present len pin) = [] ∧
      gieSequence 8 (s.present len pin) = List.replicate 4 s.gie ++ [false, false] ++ List.replicate 2 s.gie)

/-- 10_state.md R36, 46_orchestration.md R207 to R210: one state of a call has `done = 1`, with the call's result. -/
def Obligations.CallShowsItsResultOnce : Prop :=
  ∀ (s : State) (len : Half) (pin : Byte), MayCall s len → s.agenda = [] →
    (len.toNat ≤ 21845 → (s.resolve pin).isSome = true →
      resultsAtDone (successSteps s len) (s.present len pin) = [(true, 0#2)]) ∧
    (len.toNat ≤ 21845 → s.resolve pin = none → resultsAtDone 7 (s.present len pin) = [(false, 2#2)]) ∧
    (21846 ≤ len.toNat → resultsAtDone 3 (s.present len pin) = [(false, 1#2)])

/-! ## The wire -/

/-- 00_scope.md R7, 30_encoding.md R94, R96: timing symmetry, the bound on the 0 bit's HIGH dwell, frame length. -/
def Obligations.SymbolsShareOneBitPeriod : Prop :=
  ∀ (c : Config) (b : Bool) (bytes : List Byte), c.wf = true →
    (symWave c b).length = c.tbit ∧ (symWave c b).count true = c.th b ∧
    (symWave c false).count true < (symWave c true).count true ∧
    ((symWave c false).count true) * c.tickNs < 500 ∧ (frameWave c bytes).length = 8 * bytes.length * c.tbit

/-- 30_encoding.md R94, 00_scope.md R6: the source's dwell table in ns, under every parameter set whose tick counts are
exact, the defaults among them. -/
def Obligations.SymbolsHaveTheSourcesDwells : Prop :=
  Config.default.nominal = true ∧
  ∀ (c : Config) (b : Bool), c.wf = true → c.nominal = true →
    (symWave c b).count true * c.tickNs = (if b then 900 else 350) ∧
    (symWave c b).count false * c.tickNs = (if b then 350 else 900) ∧ (symWave c b).length * c.tickNs = 1250

/-- 20_memory.md R61, R62: pixels in order, green, red, blue in a pixel, most significant bit first in a byte. -/
def Obligations.WireBitsAreInBufferOrder : Prop :=
  (∀ (bytes : List Byte) (j : Nat) (b : Byte), bytes[j / 8]? = some b →
    (frameBits bytes)[j]? = some (b.getLsbD (7 - j % 8))) ∧
  ∀ (pixels : List Pixel) (k : Nat) (p : Pixel), pixels[k]? = some p →
    (pixelBytes pixels)[3 * k]? = some p.green ∧ (pixelBytes pixels)[3 * k + 1]? = some p.red ∧
      (pixelBytes pixels)[3 * k + 2]? = some p.blue

/-- 30_encoding.md R93, R96, R101 (the receiver is the spec's assumption D14, log 22): with nominal timing the reference
receiver reads back exactly the bits of the frame and its end. -/
def Obligations.ReceiverReadsBackTheFrame : Prop :=
  ∀ (c : Config) (bytes : List Byte) (k : Nat), c.wf = true → c.t0h * c.tickNs = 350 → c.t1h * c.tickNs = 900 →
    c.tbit * c.tickNs = 1250 → c.tolNs ≤ 150 → 50000 ≤ k * c.tickNs →
    receive c (frameWave c bytes ++ List.replicate k false) =
      (frameBits bytes).map RxItem.bit ++ [RxItem.frameEnd]
end

