-- ==== Sys2Proof/Laws/Memory.lean ====
section
/-! SUPPORT. The laws of the I/O space, of the pin-direction set and of bit masks: read after write, and that every
operation keeps the canonical form. -/

namespace Sys2Proof.Machine

open Sys2Proof

theorem Memory.read_erase_same (m : Memory) (a : Nat) : Memory.read (Memory.erase m a) a = unlisted := by
  induction m with
  | nil => rfl
  | cons c rest ih =>
    by_cases h : c.1 = a
    · simpa [Memory.erase, h] using ih
    · simpa [Memory.erase, h, Memory.read] using ih

theorem Memory.read_erase_other (m : Memory) {a x : Nat} (hx : x ≠ a) :
    Memory.read (Memory.erase m a) x = Memory.read m x := by
  induction m with
  | nil => rfl
  | cons c rest ih =>
    by_cases h : c.1 = a
    · have hc : c.1 ≠ x := fun e => hx (e ▸ h)
      have ih' : Memory.read (rest.filter fun c => c.1 != a) x = Memory.read rest x := ih
      simpa [Memory.erase, h, Memory.read, hc] using ih'.trans (by rw [if_neg (h ▸ hc)])
    · have ih' : Memory.read (rest.filter fun c => c.1 != a) x = Memory.read rest x := ih
      simp [Memory.erase, h, Memory.read, ih']

theorem Memory.read_insert_other (m : Memory) {a x : Nat} (v : Nat) (hx : x ≠ a) :
    Memory.read (Memory.insert m a v) x = Memory.read m x := by
  induction m with
  | nil => simp [Memory.insert, Memory.read, Ne.symm hx]
  | cons c rest ih =>
    by_cases h : a < c.1
    · simp [Memory.insert, h, Memory.read, Ne.symm hx]
    · simp [Memory.insert, h, Memory.read, ih]

theorem Memory.read_insert_same (m : Memory) (a : Nat) (v : Nat) (ha : ∀ c ∈ m, c.1 ≠ a) :
    Memory.read (Memory.insert m a v) a = v := by
  induction m with
  | nil => simp [Memory.insert, Memory.read]
  | cons c rest ih =>
    have hc := ha c (by simp)
    have ih' := ih fun d hd => ha d (by simp [hd])
    by_cases h : a < c.1
    · simp [Memory.insert, h, Memory.read]
    · simp [Memory.insert, h, Memory.read, hc, ih']

theorem Memory.erase_avoids (m : Memory) (a : Nat) : ∀ c ∈ Memory.erase m a, c.1 ≠ a := by
  intro c hc
  simpa using (List.mem_filter.mp hc).2

/-- Read after write, same address. -/
@[simp] theorem Memory.read_write_same (m : Memory) (a : Nat) (v : Nat) : Memory.read (Memory.write m a v) a = v := by
  unfold Memory.write
  split
  · next h => rw [Memory.read_erase_same, h]
  · exact Memory.read_insert_same _ _ _ (Memory.erase_avoids m a)

/-- Read after write, another address. -/
theorem Memory.read_write_other (m : Memory) {a x : Nat} (v : Nat) (hx : x ≠ a) :
    Memory.read (Memory.write m a v) x = Memory.read m x := by
  unfold Memory.write
  split
  · exact Memory.read_erase_other m hx
  · rw [Memory.read_insert_other _ _ hx, Memory.read_erase_other m hx]

theorem Memory.insert_mem {m : Memory} {a : Nat} {v : Nat} {d : Nat × Nat} (hd : d ∈ Memory.insert m a v) :
    d = (a, v) ∨ d ∈ m := by
  induction m with
  | nil => simpa [Memory.insert] using hd
  | cons c rest ih =>
    by_cases h : a < c.1
    · simpa [Memory.insert, h] using hd
    · simp only [Memory.insert, h, if_false, List.mem_cons] at hd
      rcases hd with hd | hd
      · exact .inr (by simp [hd])
      · rcases ih hd with e | e
        · exact .inl e
        · exact .inr (by simp [e])

theorem Memory.insert_rising {m : Memory} {a : Nat} {v : Nat} (hm : m.Pairwise fun c d => c.1 < d.1)
    (ha : ∀ c ∈ m, c.1 ≠ a) : (Memory.insert m a v).Pairwise fun c d => c.1 < d.1 := by
  induction m with
  | nil => simp [Memory.insert]
  | cons c rest ih =>
    obtain ⟨hc, hrest⟩ := List.pairwise_cons.mp hm
    have hca := ha c (by simp)
    by_cases h : a < c.1
    · simp only [Memory.insert, h, if_true]
      refine List.pairwise_cons.mpr ⟨fun d hd => ?_, hm⟩
      rcases List.mem_cons.mp hd with rfl | hd
      · exact h
      · exact h.trans (hc d hd)
    · simp only [Memory.insert, h, if_false]
      refine List.pairwise_cons.mpr ⟨fun d hd => ?_, ih hrest fun d hd => ha d (by simp [hd])⟩
      rcases Memory.insert_mem hd with rfl | hd
      · show c.1 < a
        omega
      · exact hc d hd

/-- A write of a value that fits, at an address that exists, keeps the canonical form. -/
theorem Memory.write_wf {c : Config} {m : Memory} (hm : Memory.wf c m) {a : Nat} {v : Nat}
    (ha : c.addrFits a = true) (hv : c.wordFits v = true) : Memory.wf c (Memory.write m a v) := by
  have he : (Memory.erase m a).Pairwise fun d e => d.1 < e.1 := hm.1.sublist List.filter_sublist
  have hme : ∀ d ∈ Memory.erase m a, d ∈ m := fun d hd => (List.mem_filter.mp hd).1
  unfold Memory.write
  split
  · exact ⟨he, fun d hd => hm.2 d (hme d hd)⟩
  · next hne =>
    refine ⟨Memory.insert_rising he (Memory.erase_avoids m _), fun d hd => ?_⟩
    rcases Memory.insert_mem hd with rfl | hd
    · exact ⟨hne, ha, hv⟩
    · exact hm.2 d (hme d hd)

/-- What a register of a canonical I/O space reads as fits it. -/
theorem Memory.read_fits {c : Config} {m : Memory} (hm : Memory.wf c m) (a : Nat) :
    c.wordFits (Memory.read m a) = true := by
  induction m with
  | nil => simp [Memory.read, Config.wordFits, unlisted]
  | cons d rest ih =>
    unfold Memory.read
    split
    · exact (hm.2 d (by simp)).2.2
    · exact ih ⟨(List.pairwise_cons.mp hm.1).2, fun e he => hm.2 e (by simp [he])⟩

theorem Memory.erase_insert_same (m : Memory) (a : Nat) (v : Nat) :
    Memory.erase (Memory.insert m a v) a = Memory.erase m a := by
  induction m with
  | nil => simp [Memory.insert, Memory.erase]
  | cons c rest ih =>
    by_cases h : a < c.1
    · simp [Memory.insert, h, Memory.erase]
    · have ih' : (Memory.insert rest a v).filter (fun c => c.1 != a) = rest.filter fun c => c.1 != a := ih
      simp [Memory.insert, h, Memory.erase, List.filter_cons, ih']

theorem Memory.erase_write_same (m : Memory) (a : Nat) (v : Nat) :
    Memory.erase (Memory.write m a v) a = Memory.erase m a := by
  have hee : Memory.erase (Memory.erase m a) a = Memory.erase m a := by simp [Memory.erase, List.filter_filter]
  unfold Memory.write
  split
  · exact hee
  · rw [Memory.erase_insert_same, hee]

/-- Two writes of one address are the last one. -/
@[simp] theorem Memory.write_write_same (m : Memory) (a : Nat) (v w : Nat) :
    Memory.write (Memory.write m a v) a w = Memory.write m a w := by
  unfold Memory.write
  have h := Memory.erase_write_same m a v
  unfold Memory.write at h
  rw [h]

@[simp] theorem State.ioRead_ioWrite_same (s : State) (a : Nat) (v : Nat) : (s.ioWrite a v).ioRead a = v := by
  simp [State.ioRead, State.ioWrite]

theorem State.ioRead_ioWrite_other (s : State) {a x : Nat} (v : Nat) (h : x ≠ a) :
    (s.ioWrite a v).ioRead x = s.ioRead x := by
  simp [State.ioRead, State.ioWrite, Memory.read_write_other _ _ h]

theorem pinBefore_iff (p q : PinRef) : pinBefore p q = true ↔ p.addr < q.addr ∨ p.addr = q.addr ∧ p.bit < q.bit := by
  simp [pinBefore]

theorem pinBefore_trans {p q r : PinRef} (h : pinBefore p q = true) (h' : pinBefore q r = true) :
    pinBefore p r = true := by
  rw [pinBefore_iff] at *
  omega

theorem pinBefore_irrefl (p : PinRef) : ¬ pinBefore p p = true := by
  rw [pinBefore_iff]
  omega

/-- Two pins of which neither comes first are one pin. -/
theorem pinBefore_total {p q : PinRef} (h : ¬ pinBefore p q = true) (hne : p ≠ q) : pinBefore q p = true := by
  rw [pinBefore_iff] at *
  have : p.addr = q.addr → p.bit ≠ q.bit := fun ha hb => hne (by cases p; cases q; simp_all)
  omega

/-- Membership after adding a pin. -/
@[simp] theorem PinSet.mem_insert (l : List PinRef) (p q : PinRef) : q ∈ PinSet.insert l p ↔ q ∈ l ∨ q = p := by
  induction l with
  | nil => simp [PinSet.insert]
  | cons r rest ih =>
    unfold PinSet.insert
    split
    · next h => subst h; simp only [List.mem_cons]; tauto
    · split
      · simp only [List.mem_cons]; tauto
      · simp only [List.mem_cons, ih]; tauto

theorem PinSet.insert_wf {l : List PinRef} (hl : PinSet.wf l) (p : PinRef) : PinSet.wf (PinSet.insert l p) := by
  induction l with
  | nil => simp [PinSet.wf, PinSet.insert]
  | cons r rest ih =>
    obtain ⟨hr, hrest⟩ := List.pairwise_cons.mp hl
    unfold PinSet.insert
    split
    · exact hl
    · next hne =>
      split
      · next hlt =>
        refine List.pairwise_cons.mpr ⟨fun d hd => ?_, hl⟩
        rcases List.mem_cons.mp hd with rfl | hd
        · exact hlt
        · exact pinBefore_trans hlt (hr d hd)
      · next hge =>
        refine List.pairwise_cons.mpr ⟨fun d hd => ?_, ih hrest⟩
        rcases (PinSet.mem_insert rest p d).mp hd with hd | rfl
        · exact hr d hd
        · exact pinBefore_total hge hne

theorem PinSet.erase_wf {l : List PinRef} (hl : PinSet.wf l) (p : PinRef) : PinSet.wf (PinSet.erase l p) :=
  hl.sublist List.filter_sublist

theorem PinSet.insert_of_mem {l : List PinRef} (hl : PinSet.wf l) {p : PinRef} (hp : p ∈ l) : PinSet.insert l p = l := by
  induction l with
  | nil => simp at hp
  | cons r rest ih =>
    obtain ⟨hr, hrest⟩ := List.pairwise_cons.mp hl
    unfold PinSet.insert
    split
    · rfl
    · next hne =>
      have hp' : p ∈ rest := by
        rcases List.mem_cons.mp hp with h | h
        · exact absurd h hne
        · exact h
      rw [if_neg fun h => pinBefore_irrefl p (pinBefore_trans h (hr p hp')), ih hrest hp']

/-- The bits of a value outside a mask. -/
theorem clearBits_testBit (v m : Nat) (i : Nat) : (clearBits v m).testBit i = (v.testBit i && !m.testBit i) := by
  simp only [clearBits, Nat.testBit_xor, Nat.testBit_or]
  cases v.testBit i <;> cases m.testBit i <;> rfl

/-- A mask set and then flipped is the mask cleared: the two edges of a bit leave the neighbours as they were read. -/
theorem or_xor_eq_clearBits (v m : Nat) : (v ||| m) ^^^ m = clearBits v m := rfl

theorem or_and_self (v m : Nat) : (v ||| m) &&& m = m := by
  apply Nat.eq_of_testBit_eq
  intro i
  simp only [Nat.testBit_and, Nat.testBit_or]
  cases v.testBit i <;> cases m.testBit i <;> rfl

theorem clearBits_and_self (v m : Nat) : clearBits v m &&& m = 0 := by
  apply Nat.eq_of_testBit_eq
  intro i
  simp only [Nat.testBit_and, clearBits_testBit, Nat.zero_testBit]
  cases v.testBit i <;> cases m.testBit i <;> rfl

@[simp] theorem clearBits_clearBits (v m : Nat) : clearBits (clearBits v m) m = clearBits v m := by
  apply Nat.eq_of_testBit_eq
  intro i
  simp only [clearBits_testBit]
  cases v.testBit i <;> cases m.testBit i <;> rfl

@[simp] theorem clearBits_or_self (v m : Nat) : clearBits v m ||| m = v ||| m := by
  apply Nat.eq_of_testBit_eq
  intro i
  simp only [Nat.testBit_or, clearBits_testBit]
  cases v.testBit i <;> cases m.testBit i <;> rfl

@[simp] theorem clearBits_or (v m : Nat) : clearBits (v ||| m) m = clearBits v m := by
  apply Nat.eq_of_testBit_eq
  intro i
  simp only [Nat.testBit_or, clearBits_testBit]
  cases v.testBit i <;> cases m.testBit i <;> rfl

/-- Bitwise operations of values that fit a port register fit it. -/
theorem or_fits {c : Config} {v m : Nat} (hv : c.wordFits v = true) (hm : c.wordFits m = true) :
    c.wordFits (v ||| m) = true := by
  simp only [Config.wordFits, decide_eq_true_eq] at *
  exact Nat.or_lt_two_pow hv hm

theorem xor_fits {c : Config} {v m : Nat} (hv : c.wordFits v = true) (hm : c.wordFits m = true) :
    c.wordFits (v ^^^ m) = true := by
  simp only [Config.wordFits, decide_eq_true_eq] at *
  exact Nat.xor_lt_two_pow hv hm

theorem clearBits_fits {c : Config} {v m : Nat} (hv : c.wordFits v = true) (hm : c.wordFits m = true) :
    c.wordFits (clearBits v m) = true := xor_fits (or_fits hv hm) hm

/-- A mask is one-hot (30_encoding.md R97). -/
theorem bitMask_testBit (b i : Nat) : (bitMask b).testBit i = decide (i = b) := by
  rw [bitMask, Nat.one_shiftLeft, Nat.testBit_two_pow]
  simp [eq_comm]

theorem bitMask_fits {c : Config} {r : PinRef} (h : c.pinFits r = true) : c.wordFits (bitMask r.bit) = true := by
  simp only [Config.pinFits, Config.wordFits, Bool.and_eq_true, decide_eq_true_eq, bitMask, Nat.one_shiftLeft] at *
  exact Nat.pow_lt_pow_right (by omega) h.2

/-- The level of a bit that was just set, and of one that was just cleared. -/
theorem or_bitMask_level (v : Nat) (b : Nat) : (v ||| bitMask b).testBit b = true := by
  simp [bitMask_testBit]

theorem clearBits_bitMask_level (v : Nat) (b : Nat) : (clearBits v (bitMask b)).testBit b = false := by
  simp [clearBits_testBit, bitMask_testBit]

/-- The level of the pin whose register was just written. -/
theorem State.level_ioWrite_same (s : State) (r : PinRef) (v : Nat) : (s.ioWrite r.addr v).level r = v.testBit r.bit := by
  simp [State.level]

end Sys2Proof.Machine
end

