-- ==== Sys2Proof/Laws/State.lean ====
section
/-! SUPPORT. What each named update of the state does to each field; every lemma is true by rfl. -/

namespace Sys2Proof.Machine

open Sys2Proof

variable (s : State)

@[simp] theorem State.ioWrite_fsm (a : Nat) (v : Nat) : (s.ioWrite a v).fsm = s.fsm := rfl
@[simp] theorem State.ioWrite_len (a : Nat) (v : Nat) : (s.ioWrite a v).len = s.len := rfl
@[simp] theorem State.ioWrite_pin (a : Nat) (v : Nat) : (s.ioWrite a v).pin = s.pin := rfl
@[simp] theorem State.ioWrite_remain (a : Nat) (v : Nat) : (s.ioWrite a v).remain = s.remain := rfl
@[simp] theorem State.ioWrite_ptr (a : Nat) (v : Nat) : (s.ioWrite a v).ptr = s.ptr := rfl
@[simp] theorem State.ioWrite_shreg (a : Nat) (v : Nat) : (s.ioWrite a v).shreg = s.shreg := rfl
@[simp] theorem State.ioWrite_bitcnt (a : Nat) (v : Nat) : (s.ioWrite a v).bitcnt = s.bitcnt := rfl
@[simp] theorem State.ioWrite_curbit (a : Nat) (v : Nat) : (s.ioWrite a v).curbit = s.curbit := rfl
@[simp] theorem State.ioWrite_tcnt (a : Nat) (v : Nat) : (s.ioWrite a v).tcnt = s.tcnt := rfl
@[simp] theorem State.ioWrite_ioaddr (a : Nat) (v : Nat) : (s.ioWrite a v).ioaddr = s.ioaddr := rfl
@[simp] theorem State.ioWrite_mask (a : Nat) (v : Nat) : (s.ioWrite a v).mask = s.mask := rfl
@[simp] theorem State.ioWrite_portval (a : Nat) (v : Nat) : (s.ioWrite a v).portval = s.portval := rfl
@[simp] theorem State.ioWrite_token (a : Nat) (v : Nat) : (s.ioWrite a v).token = s.token := rfl
@[simp] theorem State.ioWrite_err (a : Nat) (v : Nat) : (s.ioWrite a v).err = s.err := rfl
@[simp] theorem State.ioWrite_ok (a : Nat) (v : Nat) : (s.ioWrite a v).ok = s.ok := rfl
@[simp] theorem State.ioWrite_io (a : Nat) (v : Nat) : (s.ioWrite a v).io = Memory.write s.io a v := rfl
@[simp] theorem State.ioWrite_gie (a : Nat) (v : Nat) : (s.ioWrite a v).gie = s.gie := rfl
@[simp] theorem State.ioWrite_outmode (a : Nat) (v : Nat) : (s.ioWrite a v).outmode = s.outmode := rfl
@[simp] theorem State.ioWrite_buf (a : Nat) (v : Nat) : (s.ioWrite a v).buf = s.buf := rfl
@[simp] theorem State.ioWrite_cfg (a : Nat) (v : Nat) : (s.ioWrite a v).cfg = s.cfg := rfl
@[simp] theorem State.ioWrite_ports (a : Nat) (v : Nat) : (s.ioWrite a v).ports = s.ports := rfl
@[simp] theorem State.ioWrite_agenda (a : Nat) (v : Nat) : (s.ioWrite a v).agenda = s.agenda := rfl
@[simp] theorem State.ioWrite_wave (a : Nat) (v : Nat) : (s.ioWrite a v).wave = s.wave := rfl
@[simp] theorem State.ioWrite_draws (a : Nat) (v : Nat) : (s.ioWrite a v).draws = s.draws := rfl

@[simp] theorem State.raise_fsm (e : Err) (f : Fsm) : (s.raise e f).fsm = f := rfl
@[simp] theorem State.raise_len (e : Err) (f : Fsm) : (s.raise e f).len = s.len := rfl
@[simp] theorem State.raise_pin (e : Err) (f : Fsm) : (s.raise e f).pin = s.pin := rfl
@[simp] theorem State.raise_remain (e : Err) (f : Fsm) : (s.raise e f).remain = s.remain := rfl
@[simp] theorem State.raise_ptr (e : Err) (f : Fsm) : (s.raise e f).ptr = s.ptr := rfl
@[simp] theorem State.raise_shreg (e : Err) (f : Fsm) : (s.raise e f).shreg = s.shreg := rfl
@[simp] theorem State.raise_bitcnt (e : Err) (f : Fsm) : (s.raise e f).bitcnt = s.bitcnt := rfl
@[simp] theorem State.raise_curbit (e : Err) (f : Fsm) : (s.raise e f).curbit = s.curbit := rfl
@[simp] theorem State.raise_tcnt (e : Err) (f : Fsm) : (s.raise e f).tcnt = s.tcnt := rfl
@[simp] theorem State.raise_ioaddr (e : Err) (f : Fsm) : (s.raise e f).ioaddr = s.ioaddr := rfl
@[simp] theorem State.raise_mask (e : Err) (f : Fsm) : (s.raise e f).mask = s.mask := rfl
@[simp] theorem State.raise_portval (e : Err) (f : Fsm) : (s.raise e f).portval = s.portval := rfl
@[simp] theorem State.raise_token (e : Err) (f : Fsm) : (s.raise e f).token = s.token := rfl
@[simp] theorem State.raise_err (e : Err) (f : Fsm) : (s.raise e f).err = e := rfl
@[simp] theorem State.raise_ok (e : Err) (f : Fsm) : (s.raise e f).ok = s.ok := rfl
@[simp] theorem State.raise_io (e : Err) (f : Fsm) : (s.raise e f).io = s.io := rfl
@[simp] theorem State.raise_gie (e : Err) (f : Fsm) : (s.raise e f).gie = s.gie := rfl
@[simp] theorem State.raise_outmode (e : Err) (f : Fsm) : (s.raise e f).outmode = s.outmode := rfl
@[simp] theorem State.raise_buf (e : Err) (f : Fsm) : (s.raise e f).buf = s.buf := rfl
@[simp] theorem State.raise_cfg (e : Err) (f : Fsm) : (s.raise e f).cfg = s.cfg := rfl
@[simp] theorem State.raise_ports (e : Err) (f : Fsm) : (s.raise e f).ports = s.ports := rfl
@[simp] theorem State.raise_agenda (e : Err) (f : Fsm) : (s.raise e f).agenda = s.agenda := rfl
@[simp] theorem State.raise_wave (e : Err) (f : Fsm) : (s.raise e f).wave = s.wave := rfl
@[simp] theorem State.raise_draws (e : Err) (f : Fsm) : (s.raise e f).draws = s.draws := rfl

@[simp] theorem State.returnToIdle_fsm : (s.returnToIdle).fsm = .idle := rfl
@[simp] theorem State.returnToIdle_len : (s.returnToIdle).len = s.len := rfl
@[simp] theorem State.returnToIdle_pin : (s.returnToIdle).pin = s.pin := rfl
@[simp] theorem State.returnToIdle_remain : (s.returnToIdle).remain = s.remain := rfl
@[simp] theorem State.returnToIdle_ptr : (s.returnToIdle).ptr = s.ptr := rfl
@[simp] theorem State.returnToIdle_shreg : (s.returnToIdle).shreg = s.shreg := rfl
@[simp] theorem State.returnToIdle_bitcnt : (s.returnToIdle).bitcnt = s.bitcnt := rfl
@[simp] theorem State.returnToIdle_curbit : (s.returnToIdle).curbit = s.curbit := rfl
@[simp] theorem State.returnToIdle_tcnt : (s.returnToIdle).tcnt = s.tcnt := rfl
@[simp] theorem State.returnToIdle_ioaddr : (s.returnToIdle).ioaddr = s.ioaddr := rfl
@[simp] theorem State.returnToIdle_mask : (s.returnToIdle).mask = s.mask := rfl
@[simp] theorem State.returnToIdle_portval : (s.returnToIdle).portval = s.portval := rfl
@[simp] theorem State.returnToIdle_token : (s.returnToIdle).token = s.token := rfl
@[simp] theorem State.returnToIdle_err : (s.returnToIdle).err = s.err := rfl
@[simp] theorem State.returnToIdle_ok : (s.returnToIdle).ok = s.ok := rfl
@[simp] theorem State.returnToIdle_io : (s.returnToIdle).io = s.io := rfl
@[simp] theorem State.returnToIdle_gie : (s.returnToIdle).gie = s.gie := rfl
@[simp] theorem State.returnToIdle_outmode : (s.returnToIdle).outmode = s.outmode := rfl
@[simp] theorem State.returnToIdle_buf : (s.returnToIdle).buf = s.buf := rfl
@[simp] theorem State.returnToIdle_cfg : (s.returnToIdle).cfg = s.cfg := rfl
@[simp] theorem State.returnToIdle_ports : (s.returnToIdle).ports = s.ports := rfl
@[simp] theorem State.returnToIdle_agenda : (s.returnToIdle).agenda = s.agenda := rfl
@[simp] theorem State.returnToIdle_wave : (s.returnToIdle).wave = s.wave := rfl
@[simp] theorem State.returnToIdle_draws : (s.returnToIdle).draws = s.draws := rfl

@[simp] theorem State.clearResult_fsm : (s.clearResult).fsm = s.fsm := rfl
@[simp] theorem State.clearResult_len : (s.clearResult).len = s.len := rfl
@[simp] theorem State.clearResult_pin : (s.clearResult).pin = s.pin := rfl
@[simp] theorem State.clearResult_remain : (s.clearResult).remain = s.remain := rfl
@[simp] theorem State.clearResult_ptr : (s.clearResult).ptr = s.ptr := rfl
@[simp] theorem State.clearResult_shreg : (s.clearResult).shreg = s.shreg := rfl
@[simp] theorem State.clearResult_bitcnt : (s.clearResult).bitcnt = s.bitcnt := rfl
@[simp] theorem State.clearResult_curbit : (s.clearResult).curbit = s.curbit := rfl
@[simp] theorem State.clearResult_tcnt : (s.clearResult).tcnt = s.tcnt := rfl
@[simp] theorem State.clearResult_ioaddr : (s.clearResult).ioaddr = s.ioaddr := rfl
@[simp] theorem State.clearResult_mask : (s.clearResult).mask = s.mask := rfl
@[simp] theorem State.clearResult_portval : (s.clearResult).portval = s.portval := rfl
@[simp] theorem State.clearResult_token : (s.clearResult).token = s.token := rfl
@[simp] theorem State.clearResult_err : (s.clearResult).err = .noError := rfl
@[simp] theorem State.clearResult_ok : (s.clearResult).ok = false := rfl
@[simp] theorem State.clearResult_io : (s.clearResult).io = s.io := rfl
@[simp] theorem State.clearResult_gie : (s.clearResult).gie = s.gie := rfl
@[simp] theorem State.clearResult_outmode : (s.clearResult).outmode = s.outmode := rfl
@[simp] theorem State.clearResult_buf : (s.clearResult).buf = s.buf := rfl
@[simp] theorem State.clearResult_cfg : (s.clearResult).cfg = s.cfg := rfl
@[simp] theorem State.clearResult_ports : (s.clearResult).ports = s.ports := rfl
@[simp] theorem State.clearResult_agenda : (s.clearResult).agenda = s.agenda := rfl
@[simp] theorem State.clearResult_wave : (s.clearResult).wave = s.wave := rfl
@[simp] theorem State.clearResult_draws : (s.clearResult).draws = s.draws := rfl

@[simp] theorem State.succeed_fsm : (s.succeed).fsm = s.fsm := rfl
@[simp] theorem State.succeed_len : (s.succeed).len = s.len := rfl
@[simp] theorem State.succeed_pin : (s.succeed).pin = s.pin := rfl
@[simp] theorem State.succeed_remain : (s.succeed).remain = s.remain := rfl
@[simp] theorem State.succeed_ptr : (s.succeed).ptr = s.ptr := rfl
@[simp] theorem State.succeed_shreg : (s.succeed).shreg = s.shreg := rfl
@[simp] theorem State.succeed_bitcnt : (s.succeed).bitcnt = s.bitcnt := rfl
@[simp] theorem State.succeed_curbit : (s.succeed).curbit = s.curbit := rfl
@[simp] theorem State.succeed_tcnt : (s.succeed).tcnt = s.tcnt := rfl
@[simp] theorem State.succeed_ioaddr : (s.succeed).ioaddr = s.ioaddr := rfl
@[simp] theorem State.succeed_mask : (s.succeed).mask = s.mask := rfl
@[simp] theorem State.succeed_portval : (s.succeed).portval = s.portval := rfl
@[simp] theorem State.succeed_token : (s.succeed).token = s.token := rfl
@[simp] theorem State.succeed_err : (s.succeed).err = s.err := rfl
@[simp] theorem State.succeed_ok : (s.succeed).ok = true := rfl
@[simp] theorem State.succeed_io : (s.succeed).io = s.io := rfl
@[simp] theorem State.succeed_gie : (s.succeed).gie = s.gie := rfl
@[simp] theorem State.succeed_outmode : (s.succeed).outmode = s.outmode := rfl
@[simp] theorem State.succeed_buf : (s.succeed).buf = s.buf := rfl
@[simp] theorem State.succeed_cfg : (s.succeed).cfg = s.cfg := rfl
@[simp] theorem State.succeed_ports : (s.succeed).ports = s.ports := rfl
@[simp] theorem State.succeed_agenda : (s.succeed).agenda = s.agenda := rfl
@[simp] theorem State.succeed_wave : (s.succeed).wave = s.wave := rfl
@[simp] theorem State.succeed_draws : (s.succeed).draws = s.draws := rfl

@[simp] theorem State.sample_fsm : (s.sample).fsm = s.fsm := rfl
@[simp] theorem State.sample_len : (s.sample).len = s.len := rfl
@[simp] theorem State.sample_pin : (s.sample).pin = s.pin := rfl
@[simp] theorem State.sample_remain : (s.sample).remain = s.remain := rfl
@[simp] theorem State.sample_ptr : (s.sample).ptr = s.ptr := rfl
@[simp] theorem State.sample_shreg : (s.sample).shreg = s.shreg := rfl
@[simp] theorem State.sample_bitcnt : (s.sample).bitcnt = s.bitcnt := rfl
@[simp] theorem State.sample_curbit : (s.sample).curbit = s.curbit := rfl
@[simp] theorem State.sample_tcnt : (s.sample).tcnt = s.tcnt := rfl
@[simp] theorem State.sample_ioaddr : (s.sample).ioaddr = s.ioaddr := rfl
@[simp] theorem State.sample_mask : (s.sample).mask = s.mask := rfl
@[simp] theorem State.sample_portval : (s.sample).portval = s.portval := rfl
@[simp] theorem State.sample_token : (s.sample).token = s.token := rfl
@[simp] theorem State.sample_err : (s.sample).err = s.err := rfl
@[simp] theorem State.sample_ok : (s.sample).ok = s.ok := rfl
@[simp] theorem State.sample_io : (s.sample).io = s.io := rfl
@[simp] theorem State.sample_gie : (s.sample).gie = s.gie := rfl
@[simp] theorem State.sample_outmode : (s.sample).outmode = s.outmode := rfl
@[simp] theorem State.sample_buf : (s.sample).buf = s.buf := rfl
@[simp] theorem State.sample_cfg : (s.sample).cfg = s.cfg := rfl
@[simp] theorem State.sample_ports : (s.sample).ports = s.ports := rfl
@[simp] theorem State.sample_agenda : (s.sample).agenda = s.agenda := rfl
@[simp] theorem State.sample_wave : (s.sample).wave = s.level s.cfg.strip :: s.wave := rfl
@[simp] theorem State.sample_draws : (s.sample).draws = s.draws := rfl

@[simp] theorem State.hold_fsm (k : Nat) : (s.hold k).fsm = s.fsm := rfl
@[simp] theorem State.hold_len (k : Nat) : (s.hold k).len = s.len := rfl
@[simp] theorem State.hold_pin (k : Nat) : (s.hold k).pin = s.pin := rfl
@[simp] theorem State.hold_remain (k : Nat) : (s.hold k).remain = s.remain := rfl
@[simp] theorem State.hold_ptr (k : Nat) : (s.hold k).ptr = s.ptr := rfl
@[simp] theorem State.hold_shreg (k : Nat) : (s.hold k).shreg = s.shreg := rfl
@[simp] theorem State.hold_bitcnt (k : Nat) : (s.hold k).bitcnt = s.bitcnt := rfl
@[simp] theorem State.hold_curbit (k : Nat) : (s.hold k).curbit = s.curbit := rfl
@[simp] theorem State.hold_tcnt (k : Nat) : (s.hold k).tcnt = s.tcnt := rfl
@[simp] theorem State.hold_ioaddr (k : Nat) : (s.hold k).ioaddr = s.ioaddr := rfl
@[simp] theorem State.hold_mask (k : Nat) : (s.hold k).mask = s.mask := rfl
@[simp] theorem State.hold_portval (k : Nat) : (s.hold k).portval = s.portval := rfl
@[simp] theorem State.hold_token (k : Nat) : (s.hold k).token = s.token := rfl
@[simp] theorem State.hold_err (k : Nat) : (s.hold k).err = s.err := rfl
@[simp] theorem State.hold_ok (k : Nat) : (s.hold k).ok = s.ok := rfl
@[simp] theorem State.hold_io (k : Nat) : (s.hold k).io = s.io := rfl
@[simp] theorem State.hold_gie (k : Nat) : (s.hold k).gie = s.gie := rfl
@[simp] theorem State.hold_outmode (k : Nat) : (s.hold k).outmode = s.outmode := rfl
@[simp] theorem State.hold_buf (k : Nat) : (s.hold k).buf = s.buf := rfl
@[simp] theorem State.hold_cfg (k : Nat) : (s.hold k).cfg = s.cfg := rfl
@[simp] theorem State.hold_ports (k : Nat) : (s.hold k).ports = s.ports := rfl
@[simp] theorem State.hold_agenda (k : Nat) : (s.hold k).agenda = s.agenda := rfl
@[simp] theorem State.hold_wave (k : Nat) : (s.hold k).wave = List.replicate k (s.level s.cfg.strip) ++ s.wave := rfl
@[simp] theorem State.hold_draws (k : Nat) : (s.hold k).draws = s.draws := rfl

@[simp] theorem State.driveLine_fsm (h : Bool) : (s.driveLine h).fsm = s.fsm := rfl
@[simp] theorem State.driveLine_len (h : Bool) : (s.driveLine h).len = s.len := rfl
@[simp] theorem State.driveLine_pin (h : Bool) : (s.driveLine h).pin = s.pin := rfl
@[simp] theorem State.driveLine_remain (h : Bool) : (s.driveLine h).remain = s.remain := rfl
@[simp] theorem State.driveLine_ptr (h : Bool) : (s.driveLine h).ptr = s.ptr := rfl
@[simp] theorem State.driveLine_shreg (h : Bool) : (s.driveLine h).shreg = s.shreg := rfl
@[simp] theorem State.driveLine_bitcnt (h : Bool) : (s.driveLine h).bitcnt = s.bitcnt := rfl
@[simp] theorem State.driveLine_curbit (h : Bool) : (s.driveLine h).curbit = s.curbit := rfl
@[simp] theorem State.driveLine_tcnt (h : Bool) : (s.driveLine h).tcnt = s.tcnt := rfl
@[simp] theorem State.driveLine_ioaddr (h : Bool) : (s.driveLine h).ioaddr = s.ioaddr := rfl
@[simp] theorem State.driveLine_mask (h : Bool) : (s.driveLine h).mask = s.mask := rfl
@[simp] theorem State.driveLine_portval (h : Bool) : (s.driveLine h).portval = s.portval := rfl
@[simp] theorem State.driveLine_token (h : Bool) : (s.driveLine h).token = s.token := rfl
@[simp] theorem State.driveLine_err (h : Bool) : (s.driveLine h).err = s.err := rfl
@[simp] theorem State.driveLine_ok (h : Bool) : (s.driveLine h).ok = s.ok := rfl
@[simp] theorem State.driveLine_gie (h : Bool) : (s.driveLine h).gie = s.gie := rfl
@[simp] theorem State.driveLine_outmode (h : Bool) : (s.driveLine h).outmode = s.outmode := rfl
@[simp] theorem State.driveLine_buf (h : Bool) : (s.driveLine h).buf = s.buf := rfl
@[simp] theorem State.driveLine_cfg (h : Bool) : (s.driveLine h).cfg = s.cfg := rfl
@[simp] theorem State.driveLine_ports (h : Bool) : (s.driveLine h).ports = s.ports := rfl
@[simp] theorem State.driveLine_agenda (h : Bool) : (s.driveLine h).agenda = s.agenda := rfl
@[simp] theorem State.driveLine_wave (h : Bool) : (s.driveLine h).wave = s.wave := rfl
@[simp] theorem State.driveLine_draws (h : Bool) : (s.driveLine h).draws = s.draws := rfl

@[simp] theorem State.present_fsm (l : Half) (p : Byte) : (s.present l p).fsm = s.fsm := rfl
@[simp] theorem State.present_len (l : Half) (p : Byte) : (s.present l p).len = s.len := rfl
@[simp] theorem State.present_pin (l : Half) (p : Byte) : (s.present l p).pin = s.pin := rfl
@[simp] theorem State.present_remain (l : Half) (p : Byte) : (s.present l p).remain = s.remain := rfl
@[simp] theorem State.present_ptr (l : Half) (p : Byte) : (s.present l p).ptr = s.ptr := rfl
@[simp] theorem State.present_shreg (l : Half) (p : Byte) : (s.present l p).shreg = s.shreg := rfl
@[simp] theorem State.present_bitcnt (l : Half) (p : Byte) : (s.present l p).bitcnt = s.bitcnt := rfl
@[simp] theorem State.present_curbit (l : Half) (p : Byte) : (s.present l p).curbit = s.curbit := rfl
@[simp] theorem State.present_tcnt (l : Half) (p : Byte) : (s.present l p).tcnt = s.tcnt := rfl
@[simp] theorem State.present_ioaddr (l : Half) (p : Byte) : (s.present l p).ioaddr = s.ioaddr := rfl
@[simp] theorem State.present_mask (l : Half) (p : Byte) : (s.present l p).mask = s.mask := rfl
@[simp] theorem State.present_portval (l : Half) (p : Byte) : (s.present l p).portval = s.portval := rfl
@[simp] theorem State.present_token (l : Half) (p : Byte) : (s.present l p).token = s.token := rfl
@[simp] theorem State.present_err (l : Half) (p : Byte) : (s.present l p).err = s.err := rfl
@[simp] theorem State.present_ok (l : Half) (p : Byte) : (s.present l p).ok = s.ok := rfl
@[simp] theorem State.present_io (l : Half) (p : Byte) : (s.present l p).io = s.io := rfl
@[simp] theorem State.present_gie (l : Half) (p : Byte) : (s.present l p).gie = s.gie := rfl
@[simp] theorem State.present_outmode (l : Half) (p : Byte) : (s.present l p).outmode = s.outmode := rfl
@[simp] theorem State.present_buf (l : Half) (p : Byte) : (s.present l p).buf = s.buf := rfl
@[simp] theorem State.present_cfg (l : Half) (p : Byte) : (s.present l p).cfg = s.cfg := rfl
@[simp] theorem State.present_ports (l : Half) (p : Byte) : (s.present l p).ports = { s.ports with start := true, reqLen := l, reqPin := p } := rfl
@[simp] theorem State.present_agenda (l : Half) (p : Byte) : (s.present l p).agenda = s.agenda := rfl
@[simp] theorem State.present_wave (l : Half) (p : Byte) : (s.present l p).wave = s.wave := rfl
@[simp] theorem State.present_draws (l : Half) (p : Byte) : (s.present l p).draws = s.draws := rfl

@[simp] theorem State.withdraw_fsm : (s.withdraw).fsm = s.fsm := rfl
@[simp] theorem State.withdraw_len : (s.withdraw).len = s.len := rfl
@[simp] theorem State.withdraw_pin : (s.withdraw).pin = s.pin := rfl
@[simp] theorem State.withdraw_remain : (s.withdraw).remain = s.remain := rfl
@[simp] theorem State.withdraw_ptr : (s.withdraw).ptr = s.ptr := rfl
@[simp] theorem State.withdraw_shreg : (s.withdraw).shreg = s.shreg := rfl
@[simp] theorem State.withdraw_bitcnt : (s.withdraw).bitcnt = s.bitcnt := rfl
@[simp] theorem State.withdraw_curbit : (s.withdraw).curbit = s.curbit := rfl
@[simp] theorem State.withdraw_tcnt : (s.withdraw).tcnt = s.tcnt := rfl
@[simp] theorem State.withdraw_ioaddr : (s.withdraw).ioaddr = s.ioaddr := rfl
@[simp] theorem State.withdraw_mask : (s.withdraw).mask = s.mask := rfl
@[simp] theorem State.withdraw_portval : (s.withdraw).portval = s.portval := rfl
@[simp] theorem State.withdraw_token : (s.withdraw).token = s.token := rfl
@[simp] theorem State.withdraw_err : (s.withdraw).err = s.err := rfl
@[simp] theorem State.withdraw_ok : (s.withdraw).ok = s.ok := rfl
@[simp] theorem State.withdraw_io : (s.withdraw).io = s.io := rfl
@[simp] theorem State.withdraw_gie : (s.withdraw).gie = s.gie := rfl
@[simp] theorem State.withdraw_outmode : (s.withdraw).outmode = s.outmode := rfl
@[simp] theorem State.withdraw_buf : (s.withdraw).buf = s.buf := rfl
@[simp] theorem State.withdraw_cfg : (s.withdraw).cfg = s.cfg := rfl
@[simp] theorem State.withdraw_ports : (s.withdraw).ports = { s.ports with start := false } := rfl
@[simp] theorem State.withdraw_agenda : (s.withdraw).agenda = s.agenda := rfl
@[simp] theorem State.withdraw_wave : (s.withdraw).wave = s.wave := rfl
@[simp] theorem State.withdraw_draws : (s.withdraw).draws = s.draws := rfl

@[simp] theorem State.bindBuffer_fsm (l : List Byte) : (s.bindBuffer l).fsm = s.fsm := rfl
@[simp] theorem State.bindBuffer_len (l : List Byte) : (s.bindBuffer l).len = s.len := rfl
@[simp] theorem State.bindBuffer_pin (l : List Byte) : (s.bindBuffer l).pin = s.pin := rfl
@[simp] theorem State.bindBuffer_remain (l : List Byte) : (s.bindBuffer l).remain = s.remain := rfl
@[simp] theorem State.bindBuffer_ptr (l : List Byte) : (s.bindBuffer l).ptr = s.ptr := rfl
@[simp] theorem State.bindBuffer_shreg (l : List Byte) : (s.bindBuffer l).shreg = s.shreg := rfl
@[simp] theorem State.bindBuffer_bitcnt (l : List Byte) : (s.bindBuffer l).bitcnt = s.bitcnt := rfl
@[simp] theorem State.bindBuffer_curbit (l : List Byte) : (s.bindBuffer l).curbit = s.curbit := rfl
@[simp] theorem State.bindBuffer_tcnt (l : List Byte) : (s.bindBuffer l).tcnt = s.tcnt := rfl
@[simp] theorem State.bindBuffer_ioaddr (l : List Byte) : (s.bindBuffer l).ioaddr = s.ioaddr := rfl
@[simp] theorem State.bindBuffer_mask (l : List Byte) : (s.bindBuffer l).mask = s.mask := rfl
@[simp] theorem State.bindBuffer_portval (l : List Byte) : (s.bindBuffer l).portval = s.portval := rfl
@[simp] theorem State.bindBuffer_token (l : List Byte) : (s.bindBuffer l).token = s.token := rfl
@[simp] theorem State.bindBuffer_err (l : List Byte) : (s.bindBuffer l).err = s.err := rfl
@[simp] theorem State.bindBuffer_ok (l : List Byte) : (s.bindBuffer l).ok = s.ok := rfl
@[simp] theorem State.bindBuffer_io (l : List Byte) : (s.bindBuffer l).io = s.io := rfl
@[simp] theorem State.bindBuffer_gie (l : List Byte) : (s.bindBuffer l).gie = s.gie := rfl
@[simp] theorem State.bindBuffer_outmode (l : List Byte) : (s.bindBuffer l).outmode = s.outmode := rfl
@[simp] theorem State.bindBuffer_cfg (l : List Byte) : (s.bindBuffer l).cfg = s.cfg := rfl
@[simp] theorem State.bindBuffer_ports (l : List Byte) : (s.bindBuffer l).ports = s.ports := rfl
@[simp] theorem State.bindBuffer_agenda (l : List Byte) : (s.bindBuffer l).agenda = s.agenda := rfl
@[simp] theorem State.bindBuffer_wave (l : List Byte) : (s.bindBuffer l).wave = s.wave := rfl
@[simp] theorem State.bindBuffer_draws (l : List Byte) : (s.bindBuffer l).draws = s.draws := rfl

@[simp] theorem State.resetBlock_fsm : (s.resetBlock).fsm = .idle := rfl
@[simp] theorem State.resetBlock_err : (s.resetBlock).err = .noError := rfl
@[simp] theorem State.resetBlock_ok : (s.resetBlock).ok = false := rfl
@[simp] theorem State.resetBlock_io : (s.resetBlock).io = s.io := rfl
@[simp] theorem State.resetBlock_gie : (s.resetBlock).gie = s.gie := rfl
@[simp] theorem State.resetBlock_outmode : (s.resetBlock).outmode = s.outmode := rfl
@[simp] theorem State.resetBlock_buf : (s.resetBlock).buf = s.buf := rfl
@[simp] theorem State.resetBlock_cfg : (s.resetBlock).cfg = s.cfg := rfl
@[simp] theorem State.resetBlock_ports : (s.resetBlock).ports = s.ports := rfl
@[simp] theorem State.resetBlock_agenda : (s.resetBlock).agenda = s.agenda := rfl
@[simp] theorem State.resetBlock_wave : (s.resetBlock).wave = s.wave := rfl
@[simp] theorem State.resetBlock_draws : (s.resetBlock).draws = s.draws + 1 := rfl

@[simp] theorem State.pinConfigOutLow_fsm (p : Byte) : (s.pinConfigOutLow p).fsm = s.fsm := by
  unfold State.pinConfigOutLow; split <;> rfl

@[simp] theorem State.pinConfigOutLow_len (p : Byte) : (s.pinConfigOutLow p).len = s.len := by
  unfold State.pinConfigOutLow; split <;> rfl

@[simp] theorem State.pinConfigOutLow_pin (p : Byte) : (s.pinConfigOutLow p).pin = s.pin := by
  unfold State.pinConfigOutLow; split <;> rfl

@[simp] theorem State.pinConfigOutLow_remain (p : Byte) : (s.pinConfigOutLow p).remain = s.remain := by
  unfold State.pinConfigOutLow; split <;> rfl

@[simp] theorem State.pinConfigOutLow_ptr (p : Byte) : (s.pinConfigOutLow p).ptr = s.ptr := by
  unfold State.pinConfigOutLow; split <;> rfl

@[simp] theorem State.pinConfigOutLow_shreg (p : Byte) : (s.pinConfigOutLow p).shreg = s.shreg := by
  unfold State.pinConfigOutLow; split <;> rfl

@[simp] theorem State.pinConfigOutLow_bitcnt (p : Byte) : (s.pinConfigOutLow p).bitcnt = s.bitcnt := by
  unfold State.pinConfigOutLow; split <;> rfl

@[simp] theorem State.pinConfigOutLow_curbit (p : Byte) : (s.pinConfigOutLow p).curbit = s.curbit := by
  unfold State.pinConfigOutLow; split <;> rfl

@[simp] theorem State.pinConfigOutLow_tcnt (p : Byte) : (s.pinConfigOutLow p).tcnt = s.tcnt := by
  unfold State.pinConfigOutLow; split <;> rfl

@[simp] theorem State.pinConfigOutLow_ioaddr (p : Byte) : (s.pinConfigOutLow p).ioaddr = s.ioaddr := by
  unfold State.pinConfigOutLow; split <;> rfl

@[simp] theorem State.pinConfigOutLow_mask (p : Byte) : (s.pinConfigOutLow p).mask = s.mask := by
  unfold State.pinConfigOutLow; split <;> rfl

@[simp] theorem State.pinConfigOutLow_portval (p : Byte) : (s.pinConfigOutLow p).portval = s.portval := by
  unfold State.pinConfigOutLow; split <;> rfl

@[simp] theorem State.pinConfigOutLow_token (p : Byte) : (s.pinConfigOutLow p).token = s.token := by
  unfold State.pinConfigOutLow; split <;> rfl

@[simp] theorem State.pinConfigOutLow_err (p : Byte) : (s.pinConfigOutLow p).err = s.err := by
  unfold State.pinConfigOutLow; split <;> rfl

@[simp] theorem State.pinConfigOutLow_ok (p : Byte) : (s.pinConfigOutLow p).ok = s.ok := by
  unfold State.pinConfigOutLow; split <;> rfl

@[simp] theorem State.pinConfigOutLow_gie (p : Byte) : (s.pinConfigOutLow p).gie = s.gie := by
  unfold State.pinConfigOutLow; split <;> rfl

@[simp] theorem State.pinConfigOutLow_buf (p : Byte) : (s.pinConfigOutLow p).buf = s.buf := by
  unfold State.pinConfigOutLow; split <;> rfl

@[simp] theorem State.pinConfigOutLow_cfg (p : Byte) : (s.pinConfigOutLow p).cfg = s.cfg := by
  unfold State.pinConfigOutLow; split <;> rfl

@[simp] theorem State.pinConfigOutLow_ports (p : Byte) : (s.pinConfigOutLow p).ports = s.ports := by
  unfold State.pinConfigOutLow; split <;> rfl

@[simp] theorem State.pinConfigOutLow_agenda (p : Byte) : (s.pinConfigOutLow p).agenda = s.agenda := by
  unfold State.pinConfigOutLow; split <;> rfl

@[simp] theorem State.pinConfigOutLow_wave (p : Byte) : (s.pinConfigOutLow p).wave = s.wave := by
  unfold State.pinConfigOutLow; split <;> rfl

@[simp] theorem State.pinConfigOutLow_draws (p : Byte) : (s.pinConfigOutLow p).draws = s.draws := by
  unfold State.pinConfigOutLow; split <;> rfl

@[simp] theorem State.pulse_fsm (th : Nat) : (s.pulse th).fsm = s.fsm := by simp only [State.pulse, State.hold_fsm, State.driveLine_fsm]
@[simp] theorem State.pulse_len (th : Nat) : (s.pulse th).len = s.len := by simp only [State.pulse, State.hold_len, State.driveLine_len]
@[simp] theorem State.pulse_pin (th : Nat) : (s.pulse th).pin = s.pin := by simp only [State.pulse, State.hold_pin, State.driveLine_pin]
@[simp] theorem State.pulse_remain (th : Nat) : (s.pulse th).remain = s.remain := by simp only [State.pulse, State.hold_remain, State.driveLine_remain]
@[simp] theorem State.pulse_ptr (th : Nat) : (s.pulse th).ptr = s.ptr := by simp only [State.pulse, State.hold_ptr, State.driveLine_ptr]
@[simp] theorem State.pulse_shreg (th : Nat) : (s.pulse th).shreg = s.shreg := by simp only [State.pulse, State.hold_shreg, State.driveLine_shreg]
@[simp] theorem State.pulse_bitcnt (th : Nat) : (s.pulse th).bitcnt = s.bitcnt := by simp only [State.pulse, State.hold_bitcnt, State.driveLine_bitcnt]
@[simp] theorem State.pulse_curbit (th : Nat) : (s.pulse th).curbit = s.curbit := by simp only [State.pulse, State.hold_curbit, State.driveLine_curbit]
@[simp] theorem State.pulse_tcnt (th : Nat) : (s.pulse th).tcnt = s.tcnt := by simp only [State.pulse, State.hold_tcnt, State.driveLine_tcnt]
@[simp] theorem State.pulse_ioaddr (th : Nat) : (s.pulse th).ioaddr = s.ioaddr := by simp only [State.pulse, State.hold_ioaddr, State.driveLine_ioaddr]
@[simp] theorem State.pulse_mask (th : Nat) : (s.pulse th).mask = s.mask := by simp only [State.pulse, State.hold_mask, State.driveLine_mask]
@[simp] theorem State.pulse_portval (th : Nat) : (s.pulse th).portval = s.portval := by simp only [State.pulse, State.hold_portval, State.driveLine_portval]
@[simp] theorem State.pulse_token (th : Nat) : (s.pulse th).token = s.token := by simp only [State.pulse, State.hold_token, State.driveLine_token]
@[simp] theorem State.pulse_err (th : Nat) : (s.pulse th).err = s.err := by simp only [State.pulse, State.hold_err, State.driveLine_err]
@[simp] theorem State.pulse_ok (th : Nat) : (s.pulse th).ok = s.ok := by simp only [State.pulse, State.hold_ok, State.driveLine_ok]
@[simp] theorem State.pulse_gie (th : Nat) : (s.pulse th).gie = s.gie := by simp only [State.pulse, State.hold_gie, State.driveLine_gie]
@[simp] theorem State.pulse_outmode (th : Nat) : (s.pulse th).outmode = s.outmode := by simp only [State.pulse, State.hold_outmode, State.driveLine_outmode]
@[simp] theorem State.pulse_buf (th : Nat) : (s.pulse th).buf = s.buf := by simp only [State.pulse, State.hold_buf, State.driveLine_buf]
@[simp] theorem State.pulse_cfg (th : Nat) : (s.pulse th).cfg = s.cfg := by simp only [State.pulse, State.hold_cfg, State.driveLine_cfg]
@[simp] theorem State.pulse_ports (th : Nat) : (s.pulse th).ports = s.ports := by simp only [State.pulse, State.hold_ports, State.driveLine_ports]
@[simp] theorem State.pulse_agenda (th : Nat) : (s.pulse th).agenda = s.agenda := by simp only [State.pulse, State.hold_agenda, State.driveLine_agenda]
@[simp] theorem State.pulse_draws (th : Nat) : (s.pulse th).draws = s.draws := by simp only [State.pulse, State.hold_draws, State.driveLine_draws]

end Sys2Proof.Machine
end

