-- ==== Sys2Proof/Laws/Exec.lean ====
section
/-! SUPPORT. What the operations and a tick do, said once: exec and runOp agree, no operation touches the
configuration, the buffer, the ports, the agenda or the record, and what one tick of each state is. -/

namespace Sys2Proof.Machine

open Sys2Proof

/-- Clearing a pin's bit leaves a value with that bit LOW and its neighbours kept. -/
theorem lowAt_clearBits (v b : Nat) : Safety.LowAt b v (clearBits v (bitMask b)) := by
  intro i
  rw [clearBits_testBit, bitMask_testBit]
  by_cases h : i = b <;> simp [h]

/-- Everything a move of the environment leaves alone. -/
theorem applyMove_frame (s : State) (m : EnvMove) : ∃ io gie outmode buf,
    s.applyMove m = { s with io := io, gie := gie, outmode := outmode, buf := buf } := by
  cases m with
  | ioWrite a v =>
    simp only [State.applyMove]
    split
    · exact ⟨Memory.write s.io a v, s.gie, s.outmode, s.buf, rfl⟩
    · exact ⟨s.io, s.gie, s.outmode, s.buf, rfl⟩
  | gieWrite v => exact ⟨s.io, v, s.outmode, s.buf, rfl⟩
  | bufWrite i v => exact ⟨s.io, s.gie, s.outmode, s.buf.set i v, rfl⟩
  | bufBind bytes => exact ⟨s.io, s.gie, s.outmode, bytes, rfl⟩
  | setDirection p o =>
    simp only [State.applyMove]
    split
    · exact ⟨s.io, s.gie, _, s.buf, rfl⟩
    · exact ⟨s.io, s.gie, s.outmode, s.buf, rfl⟩

/-- Everything the environment's moves of a tick leave alone. -/
theorem applyMoves_frame (moves : List EnvMove) : ∀ s : State, ∃ io gie outmode buf,
    s.applyMoves moves = { s with io := io, gie := gie, outmode := outmode, buf := buf } := by
  induction moves with
  | nil => exact fun s => ⟨s.io, s.gie, s.outmode, s.buf, rfl⟩
  | cons m rest ih =>
    intro s
    obtain ⟨a, b, c, d, h⟩ := applyMove_frame s m
    obtain ⟨a', b', c', d', h'⟩ := ih (s.applyMove m)
    exact ⟨a', b', c', d', by rw [State.applyMoves, h', h]⟩

/-- exec of the operation a state names is that state's operation in a tick. -/
theorem exec_instr (f : Fsm) (s : State) : exec f.instr s = runOp f s := by cases f <;> rfl

theorem tick_eq_clock (s : State) : tick s = clock runOp s := by
  simp only [tick, clock, exec_instr]

/-- All a step can be under a legal parameter set: a held tick, a tick with its inputs, a call, or a wire symbol. -/
theorem step_cases {s : State} (hw : s.cfg.wf = true) :
    (s.agenda = [] ∧ step s = clock runOp s) ∨
    (∃ i rest, s.agenda = .tick i :: rest ∧ step s = clock runOp ({ s with agenda := rest }.applyInput i)) ∨
    (∃ l p px rest, s.agenda = .call l p px :: rest ∧
      step s = execSetstripe l p ({ s with agenda := rest }.bindBuffer px)) ∨
    ∃ symbol rest, s.agenda = .wire symbol :: rest ∧ step s = exec (Symbol.instr symbol) { s with agenda := rest } := by
  unfold step
  rw [if_pos hw]
  cases ha : s.agenda with
  | nil => exact .inl ⟨rfl, tick_eq_clock s⟩
  | cons e rest =>
    cases e with
    | tick i => exact .inr (.inl ⟨i, rest, rfl, tick_eq_clock _⟩)
    | call l p px => exact .inr (.inr (.inl ⟨l, p, px, rest, rfl, rfl⟩))
    | wire symbol => exact .inr (.inr (.inr ⟨symbol, rest, rfl, rfl⟩))

/-- Everything an operation leaves alone. -/
theorem runOp_frame {f : Fsm} {s t : State} (h : runOp f s = .next t) :
    t.cfg = s.cfg ∧ t.buf = s.buf ∧ t.ports = s.ports ∧ t.agenda = s.agenda ∧ t.wave = s.wave := by
  cases f <;>
    simp only [runOp, execIdle, execValidate, execPininit, execAcquire, execResolve, execPreload, execDriveHigh,
      execExtract, execBranchZero, execBranchOne, execDriveLow, execFillLow, execDecide, execRelease, execLatch,
      execDone] at h
  all_goals first
    | (split at h <;> first | (split at h <;> cases h <;> simp) | (cases h; simp))
    | (cases h; simp)

/-- An operation never faults, and refuses only a request with a short buffer. -/
theorem runOp_stops (f : Fsm) (s : State) :
    (∃ t, runOp f s = .next t) ∨
      (runOp f s = .refused .shortBuffer ∧ f = .idle ∧ s.ports.start = true ∧ s.bufferServes s.ports.reqLen = false) := by
  cases f <;>
    simp only [runOp, execIdle, execValidate, execPininit, execAcquire, execResolve, execPreload, execDriveHigh,
      execExtract, execBranchZero, execBranchOne, execDriveLow, execFillLow, execDecide, execRelease, execLatch,
      execDone]
  case idle =>
    split
    · next hs =>
      split
      · exact .inl ⟨_, rfl⟩
      · next hb => exact .inr ⟨rfl, trivial, hs, by simpa using hb⟩
    · exact .inl ⟨_, rfl⟩
  all_goals first
    | exact .inl ⟨_, rfl⟩
    | (split <;> first | exact .inl ⟨_, rfl⟩ | (split <;> exact .inl ⟨_, rfl⟩))

theorem clock_run {s : State} (hr : s.ports.rst = false) : clock runOp s = sampled (runOp s.fsm s) := by
  simp [clock, hr]

theorem clock_reset {op : Fsm → State → Host.Outcome State Fault Refusal} {s : State} (hr : s.ports.rst = true) :
    clock op s = .next s.resetBlock.sample := by
  simp [clock, hr, sampled]

/-- The counting operations: one more tick, and leave when the count is reached. -/
theorem counter_clock {f g : Fsm} {n : Nat} {s : State}
    (hop : runOp f s = .next { s with tcnt := s.tcnt + 1, fsm := if s.tcnt.toNat + 1 = n then g else f })
    (hf : s.fsm = f) (hr : s.ports.rst = false) :
    clock runOp s = .next
      { s with
        tcnt := s.tcnt + 1, fsm := if s.tcnt.toNat + 1 = n then g else f, wave := s.level s.cfg.strip :: s.wave } := by
  rw [clock_run hr, hf, hop]
  rfl

theorem holdsAtLeast_iff {α : Type} (n : Nat) (l : List α) : holdsAtLeast n l = true ↔ n ≤ l.length := by
  induction n generalizing l with
  | zero => simp [holdsAtLeast]
  | succ n ih => cases l <;> simp [holdsAtLeast, ih]

/-- The factor is the parameter `CH_PER_PIXEL`. -/
theorem wireBytes_eq (len : Half) : wireBytes len = len.toNat * Config.channelsPerPixel := rfl

theorem lengthFits_iff (len : Half) : lengthFits len = true ↔ len.toNat ≤ 21845 := by
  unfold lengthFits wireBytes Config.maxBytes
  rw [decide_eq_true_eq]
  omega

theorem bufferServes_iff (s : State) (len : Half) :
    s.bufferServes len = true ↔ (len.toNat ≤ 21845 → 3 * len.toNat ≤ s.buf.length) := by
  have hf := lengthFits_iff len
  unfold State.bufferServes
  cases hc : lengthFits len
  · simp only [Bool.not_false, Bool.true_or, true_iff]
    intro h
    exact absurd (hf.mpr h) (by simp [hc])
  · simp only [Bool.not_true, Bool.false_or, holdsAtLeast_iff, wireBytes]
    have := hf.mp hc
    constructor <;> intro h <;> first | (intro _; omega) | (have := h this; omega)

/-- What a legal parameter set is, out of the check. -/
theorem wf_iff (c : Config) : c.wf = true ↔
    2 ≤ c.t0h ∧ c.t0h < c.t1h ∧ c.t1h + 2 ≤ c.tbit ∧ c.t0h * c.tickNs < 500 ∧ 50000 ≤ c.latchTicks * c.tickNs ∧
      c.latchTicks < 65536 ∧ c.tbit ≤ 65536 ∧ (∀ e ∈ c.pinmap, c.pinFits e.2 = true) ∧ c.pinFits c.strip = true := by
  simp only [Config.wf, Bool.and_eq_true, decide_eq_true_eq, List.all_eq_true, and_assoc]

theorem th_bounds {c : Config} (h : c.wf = true) (b : Bool) : 2 ≤ c.th b ∧ c.th b + 2 ≤ c.tbit := by
  obtain ⟨h1, h2, h3, -⟩ := (wf_iff c).mp h
  unfold Config.th
  cases b <;> simp <;> omega

/-- A pin that resolves is a bit of an I/O register (10_state.md R41). -/
theorem resolve_fits {s : State} (h : s.cfg.wf = true) {p : Byte} {r : PinRef} (hr : s.resolve p = some r) :
    s.cfg.pinFits r = true := by
  have key : ∀ l : List (Byte × PinRef), resolveIn l p = some r → ∃ e ∈ l, e.2 = r := by
    intro l
    induction l with
    | nil => intro h; simp [resolveIn] at h
    | cons e rest ih =>
      intro h
      unfold resolveIn at h
      split at h
      · exact ⟨e, by simp, by simpa using h⟩
      · obtain ⟨d, hd, he⟩ := ih h
        exact ⟨d, by simp [hd], he⟩
  obtain ⟨e, he, rfl⟩ := key _ hr
  exact ((wf_iff _).mp h).2.2.2.2.2.2.2.1 e he

theorem latchTicks_pos {c : Config} (h : c.wf = true) : 1 ≤ c.latchTicks := by
  obtain ⟨-, -, -, -, h5, -⟩ := (wf_iff c).mp h
  rcases Nat.eq_zero_or_pos c.latchTicks with h0 | h0
  · simp [h0] at h5
  · exact h0

end Sys2Proof.Machine
end

