-- ==== Sys2Proof/Laws/Run.lean ====
section
/-! SUPPORT. Runs of undisturbed ticks: counting states, one slot, one byte. A run carries a property that every state
before its end has. -/

namespace Sys2Proof.Machine

open Sys2Proof

/-- `n` ticks lead from `s` to `t`, and every state before `t` has `P`. -/
def RunWhile (P : State → Prop) : Nat → State → State → Prop
  | 0, s, t => s = t
  | n + 1, s, t => P s ∧ ∃ u, clock runOp s = .next u ∧ RunWhile P n u t

theorem RunWhile.one {P : State → Prop} {s t : State} (hp : P s) (h : clock runOp s = .next t) : RunWhile P 1 s t :=
  ⟨hp, t, h, rfl⟩

theorem RunWhile.trans {P : State → Prop} {m n : Nat} {s t u : State} (h : RunWhile P m s t) (h' : RunWhile P n t u) :
    RunWhile P (m + n) s u := by
  induction m generalizing s with
  | zero => cases h; simpa using h'
  | succ m ih =>
    obtain ⟨hp, v, hv, hr⟩ := h
    rw [Nat.succ_add]
    exact ⟨hp, v, hv, ih hr⟩

theorem RunWhile.mono {P Q : State → Prop} (hpq : ∀ s, P s → Q s) {n : Nat} {s t : State} (h : RunWhile P n s t) :
    RunWhile Q n s t := by
  induction n generalizing s with
  | zero => exact h
  | succ n ih =>
    obtain ⟨hp, v, hv, hr⟩ := h
    exact ⟨hpq s hp, v, hv, ih hr⟩

theorem RunWhile.cast {P : State → Prop} {m n : Nat} {s t : State} (h : RunWhile P m s t) (e : m = n) :
    RunWhile P n s t := e ▸ h

/-- Cut a run at one of its states. -/
theorem RunWhile.cut {P : State → Prop} {k n : Nat} {s t : State} (h : RunWhile P n s t) (hk : k ≤ n) :
    ∃ u, RunWhile P k s u ∧ RunWhile P (n - k) u t := by
  induction k generalizing n s with
  | zero => exact ⟨s, rfl, h⟩
  | succ k ih =>
    obtain ⟨m, rfl⟩ : ∃ m, n = m + 1 := ⟨n - 1, by omega⟩
    obtain ⟨hp, v, hv, hr⟩ := h
    obtain ⟨u, h1, h2⟩ := ih hr (by omega)
    refine ⟨u, ⟨hp, v, hv, h1⟩, h2.cast (by omega)⟩

theorem RunWhile.head {P : State → Prop} {n : Nat} {s t : State} (h : RunWhile P n s t) (hn : 0 < n) : P s := by
  obtain ⟨m, rfl⟩ : ∃ m, n = m + 1 := ⟨n - 1, by omega⟩
  exact h.1

theorem RunWhile.end_unique {P Q : State → Prop} {n : Nat} {s t u : State} (h : RunWhile P n s t)
    (h' : RunWhile Q n s u) : t = u := by
  induction n generalizing s with
  | zero => exact h.symm.trans h'
  | succ n ih =>
    obtain ⟨-, v, hv, hr⟩ := h
    obtain ⟨-, w, hw, hr'⟩ := h'
    rw [hv] at hw
    cases hw
    exact ih hr hr'

/-- The host's wait ends where a run of busy states ends in IDLE. -/
theorem untilIdle_of_run {P : State → Prop} (hP : ∀ s, P s → s.fsm ≠ .idle) {n fuel : Nat} {s t : State}
    (h : RunWhile P n s t) (ht : t.fsm = .idle) (hn : n ≤ fuel) : untilIdle fuel s = .next t := by
  induction n generalizing s fuel with
  | zero =>
    cases h
    cases fuel <;> simp [untilIdle, ht]
  | succ n ih =>
    obtain ⟨hp, v, hv, hr⟩ := h
    obtain ⟨m, rfl⟩ : ∃ m, fuel = m + 1 := ⟨fuel - 1, by omega⟩
    rw [untilIdle, if_neg (hP s hp), hv]
    exact ih hr (by omega)

theorem core_run_succ (M : Host.Core) {n : Nat} {s t : M.State} (h : M.step s = .next t) :
    M.run (n + 1) s = M.run n t := by
  rw [Host.Core.run, h]

/-- A step of an undisturbed state is a tick. -/
theorem step_undisturbed {s : State} (hs : Safety.Undisturbed s) : step s = clock runOp s := by
  obtain ⟨hw, ha, -⟩ := hs
  unfold step
  rw [if_pos hw, ha]
  exact tick_eq_clock s

/-- A tick without reset leaves the parameters, the agenda and the ports alone, and the chain samples where it ends. -/
theorem clock_frame {s t : State} (hr : s.ports.rst = false) (h : clock runOp s = .next t) :
    t.cfg = s.cfg ∧ t.agenda = s.agenda ∧ t.ports = s.ports ∧ t.wave = t.level t.cfg.strip :: s.wave := by
  rw [clock_run hr] at h
  cases hop : runOp s.fsm s with
  | next w =>
    rw [hop] at h
    cases h
    obtain ⟨h1, -, h3, h4, h5⟩ := runOp_frame hop
    exact ⟨h1, h4, h3, congrArg (w.level w.cfg.strip :: ·) h5⟩
  | fault f => rw [hop] at h; cases h
  | refused r => rw [hop] at h; cases h

theorem undisturbed_next {s t : State} (hs : Safety.Undisturbed s) (h : clock runOp s = .next t) :
    Safety.Undisturbed t := by
  obtain ⟨hw, ha, hr⟩ := hs
  obtain ⟨h1, h2, h3, -⟩ := clock_frame hr h
  exact ⟨h1 ▸ hw, h2 ▸ ha, h3 ▸ hr⟩

theorem undisturbed_run {P : State → Prop} {n : Nat} {s t : State} (hs : Safety.Undisturbed s) (h : RunWhile P n s t) :
    Safety.Undisturbed t := by
  induction n generalizing s with
  | zero => exact h ▸ hs
  | succ n ih =>
    obtain ⟨-, u, hu, hr⟩ := h
    exact ih (undisturbed_next hs hu) hr

/-- Steps of an undisturbed state are ticks. -/
theorem steps_of_run {P : State → Prop} {n : Nat} {s t : State} (hs : Safety.Undisturbed s) (h : RunWhile P n s t) :
    Safety.steps n s = .next t := by
  induction n generalizing s with
  | zero => cases h; rfl
  | succ n ih =>
    obtain ⟨-, v, hv, hrun⟩ := h
    have hrun1 : Safety.steps (n + 1) s = Safety.steps n v :=
      core_run_succ Sys2Proof.core ((step_undisturbed hs).trans hv)
    rw [hrun1]
    exact ih (undisturbed_next hs hv) hrun

/-- A 16-bit counter below its top counts up. -/
theorem half_succ {x : Half} (h : x.toNat < 65535) : (x + 1).toNat = x.toNat + 1 := by
  have h1 : (1 : Half).toNat = 1 := rfl
  rw [BitVec.toNat_add, h1]
  omega

/-- A counting state runs until its count is reached. -/
theorem counter_run {f g : Fsm} {n : Nat} {c : Config} (hn : n < 65536)
    (hop : ∀ u : State, u.cfg = c →
      runOp f u = .next { u with tcnt := u.tcnt + 1, fsm := if u.tcnt.toNat + 1 = n then g else f })
    (k : Nat) (s : State) (hc : s.cfg = c) (hf : s.fsm = f) (hr : s.ports.rst = false) (hk : 1 ≤ k)
    (hs : s.tcnt.toNat + k = n) :
    RunWhile (fun u => u.fsm = f ∧ u.gie = s.gie) k s
      { s with
        tcnt := BitVec.ofNat 16 n, fsm := g, wave := List.replicate k (s.level s.cfg.strip) ++ s.wave } := by
  induction k generalizing s with
  | zero => omega
  | succ k ih =>
    refine ⟨⟨hf, rfl⟩, _, counter_clock (hop s hc) hf hr, ?_⟩
    have ht : (s.tcnt + 1).toNat = s.tcnt.toNat + 1 := half_succ (by omega)
    by_cases hk0 : k = 0
    · subst hk0
      have hn' : s.tcnt + 1 = BitVec.ofNat 16 n := by
        apply BitVec.eq_of_toNat_eq
        rw [ht, BitVec.toNat_ofNat]
        omega
      rw [if_pos (by omega), hn']
      rfl
    · rw [if_neg (by omega)]
      have := ih
        { s with tcnt := s.tcnt + 1, fsm := f, wave := s.level s.cfg.strip :: s.wave } hc rfl hr (by omega)
        (by show (s.tcnt + 1).toNat + k = n; omega)
      convert this using 2
      show List.replicate (k + 1) _ ++ s.wave = List.replicate k _ ++ (_ :: s.wave)
      rw [List.replicate_succ', List.append_assoc]
      rfl

end Sys2Proof.Machine
end

