-- ==== Sys2Proof/Laws/Slot.lean ====
section
/-! SUPPORT. One slot of the engine (44_bit_engine.md R151): from a DRIVE_HIGH state with `TCNT = 0`, `TBIT - 1` ticks
lead to its DECIDE state. -/

namespace Sys2Proof.Machine

open Sys2Proof

/-- The states of a slot before its DECIDE. -/
def SlotFsm (f : Fsm) : Prop :=
  f = .driveHigh ∨ f = .extract ∨ f = .branchZero ∨ f = .branchOne ∨ f = .driveLow ∨ f = .fillLow

/-- The states of the engine after PRELOAD. -/
def EngineFsm (f : Fsm) : Prop := SlotFsm f ∨ f = .decideContinue

theorem EngineFsm.busy {f : Fsm} (h : EngineFsm f) : f ≠ .idle := by
  rcases h with (h | h | h | h | h | h) | h <;> simp [h]

/-- Before its DECIDE no state of a slot reads the buffer. -/
theorem SlotFsm.reads_nothing {s : State} (h : SlotFsm s.fsm) : s.readIndex = none := by
  rcases h with h | h | h | h | h | h <;> simp [State.readIndex, h]

/-- What the strip shows between the edges of a slot, and after the falling edge. -/
def State.highLevel (s : State) : Bool := (s.ioWrite s.ioaddr (s.ioRead s.ioaddr ||| s.mask)).level s.cfg.strip
@[inherit_doc State.highLevel] def State.lowLevel (s : State) : Bool :=
  (s.ioWrite s.ioaddr (clearBits (s.ioRead s.ioaddr) s.mask)).level s.cfg.strip

/-- The DECIDE state of a slot that starts in `s`. -/
def State.slotEnd (s : State) : State :=
  { s with
    fsm := .decideContinue
    tcnt := BitVec.ofNat 16 (s.cfg.tbit - 1)
    curbit := topBit s.shreg
    shreg := shiftOut s.shreg
    portval := clearBits (s.ioRead s.ioaddr) s.mask
    io := Memory.write s.io s.ioaddr (clearBits (s.ioRead s.ioaddr) s.mask)
    wave := List.replicate (s.cfg.tbit - 1 - s.cfg.th (topBit s.shreg)) s.lowLevel ++
      (List.replicate (s.cfg.th (topBit s.shreg)) s.highLevel ++ s.wave) }

/-- After the rising edge. -/
def State.risen (s : State) : State :=
  { s with
    fsm := .extract
    tcnt := 1
    portval := s.ioRead s.ioaddr ||| s.mask
    io := Memory.write s.io s.ioaddr (s.ioRead s.ioaddr ||| s.mask)
    wave := s.highLevel :: s.wave }

theorem rising_edge {s : State} (hr : s.ports.rst = false) (hf : s.fsm = .driveHigh) :
    clock runOp s = .next s.risen := by
  rw [clock_run hr, hf]
  rfl

/-- Just before the falling edge. -/
def State.beforeFall (s : State) : State :=
  { s with
    fsm := .driveLow
    tcnt := BitVec.ofNat 16 (s.cfg.th (topBit s.shreg))
    curbit := topBit s.shreg
    shreg := shiftOut s.shreg
    portval := s.ioRead s.ioaddr ||| s.mask
    io := Memory.write s.io s.ioaddr (s.ioRead s.ioaddr ||| s.mask)
    wave := List.replicate (s.cfg.th (topBit s.shreg)) s.highLevel ++ s.wave }

/-- The branch state of a bit. -/
def branchFsm (b : Bool) : Fsm := if b then .branchOne else .branchZero

theorem branchFsm_slot (b : Bool) : SlotFsm (branchFsm b) := by
  cases b <;> simp [SlotFsm, branchFsm]

theorem branch_counts (c : Config) (b : Bool) (u : State) (hu : u.cfg = c) :
    runOp (branchFsm b) u =
      .next { u with
        tcnt := u.tcnt + 1, fsm := if u.tcnt.toNat + 1 = c.th b then .driveLow else branchFsm b } := by
  subst hu
  cases b <;> rfl

theorem high_phase {s : State} (hw : s.cfg.wf = true) (hr : s.ports.rst = false) (hf : s.fsm = .driveHigh) :
    RunWhile (fun u => SlotFsm u.fsm ∧ u.gie = s.gie) (s.cfg.th (topBit s.shreg)) s s.beforeFall := by
  obtain ⟨hth2, hth⟩ := th_bounds hw (topBit s.shreg)
  have htb : s.cfg.tbit ≤ 65536 := ((wf_iff _).mp hw).2.2.2.2.2.2.1
  have h1 : RunWhile (fun u => SlotFsm u.fsm ∧ u.gie = s.gie) 1 s s.risen :=
    .one ⟨.inl hf, rfl⟩ (rising_edge hr hf)
  let s2 : State := { s.risen with
    fsm := if s.cfg.th (topBit s.shreg) = 2 then .driveLow else if topBit s.shreg then .branchOne else .branchZero
    tcnt := 2, curbit := topBit s.shreg, shreg := shiftOut s.shreg, wave := s.highLevel :: s.highLevel :: s.wave }
  have h2 : RunWhile (fun u => SlotFsm u.fsm ∧ u.gie = s.gie) 1 s.risen s2 := by
    refine .one ⟨.inr (.inl rfl), rfl⟩ ?_
    rw [clock_run (s := s.risen) hr]
    rfl
  have hw2 : ∀ k, List.replicate k s.highLevel ++ (s.highLevel :: s.highLevel :: s.wave) =
      List.replicate (k + 2) s.highLevel ++ s.wave := by
    intro k
    rw [List.replicate_add, List.append_assoc]
    rfl
  by_cases ht : s.cfg.th (topBit s.shreg) = 2
  · have : s2 = s.beforeFall := by
      simp only [s2, State.beforeFall, State.risen, ht, if_true]
      congr 1
    rw [this] at h2
    exact (h1.trans h2).cast (by omega)
  · have h3 := counter_run (n := s.cfg.th (topBit s.shreg)) (by omega) (branch_counts s.cfg (topBit s.shreg))
      (s.cfg.th (topBit s.shreg) - 2) s2 rfl (by simp only [s2, if_neg ht, branchFsm]) hr (by omega)
      (by show 2 + _ = _; omega)
    have hend : { s2 with
        tcnt := BitVec.ofNat 16 (s.cfg.th (topBit s.shreg)), fsm := .driveLow
        wave := List.replicate (s.cfg.th (topBit s.shreg) - 2) (s2.level s2.cfg.strip) ++ s2.wave } = s.beforeFall := by
      have hlv : s2.level s2.cfg.strip = s.highLevel := rfl
      rw [hlv]
      simp only [State.beforeFall, s2, State.risen, hw2]
      rw [show s.cfg.th (topBit s.shreg) - 2 + 2 = s.cfg.th (topBit s.shreg) by omega]
    rw [hend] at h3
    have h3' := h3.mono (Q := fun u => SlotFsm u.fsm ∧ u.gie = s.gie) fun u hu =>
      ⟨by rw [hu.1]; exact branchFsm_slot _, hu.2⟩
    exact ((h1.trans h2).trans h3').cast (by omega)

theorem low_phase {s : State} (hw : s.cfg.wf = true) (hr : s.ports.rst = false) :
    RunWhile (fun u => SlotFsm u.fsm ∧ u.gie = s.gie) (s.cfg.tbit - 1 - s.cfg.th (topBit s.shreg))
      s.beforeFall s.slotEnd := by
  obtain ⟨hth2, hth⟩ := th_bounds hw (topBit s.shreg)
  have htb : s.cfg.tbit ≤ 65536 := ((wf_iff _).mp hw).2.2.2.2.2.2.1
  have htn : (BitVec.ofNat 16 (s.cfg.th (topBit s.shreg))).toNat = s.cfg.th (topBit s.shreg) := by
    rw [BitVec.toNat_ofNat]; omega
  let s4 : State := { s.beforeFall with
    fsm := if s.cfg.th (topBit s.shreg) + 2 = s.cfg.tbit then .decideContinue else .fillLow
    tcnt := BitVec.ofNat 16 (s.cfg.th (topBit s.shreg) + 1)
    portval := clearBits (s.ioRead s.ioaddr) s.mask
    io := Memory.write s.io s.ioaddr (clearBits (s.ioRead s.ioaddr) s.mask)
    wave := s.lowLevel :: (List.replicate (s.cfg.th (topBit s.shreg)) s.highLevel ++ s.wave) }
  have htadd : BitVec.ofNat 16 (s.cfg.th (topBit s.shreg)) + 1 = BitVec.ofNat 16 (s.cfg.th (topBit s.shreg) + 1) := by
    apply BitVec.eq_of_toNat_eq
    rw [half_succ (by omega), htn, BitVec.toNat_ofNat]
    omega
  have h4 : RunWhile (fun u => SlotFsm u.fsm ∧ u.gie = s.gie) 1 s.beforeFall s4 := by
    refine .one ⟨.inr (.inr (.inr (.inr (.inl rfl)))), rfl⟩ ?_
    rw [clock_run (s := s.beforeFall) hr]
    show Host.Outcome.next (State.sample _) = _
    simp only [State.sample, State.level, State.ioWrite, State.beforeFall, s4, htadd, htn, or_xor_eq_clearBits,
      State.lowLevel, State.ioRead, Memory.write_write_same]
  by_cases he : s.cfg.th (topBit s.shreg) + 2 = s.cfg.tbit
  · have : s4 = s.slotEnd := by
      simp only [s4, State.slotEnd, State.beforeFall, he, if_true]
      rw [show s.cfg.th (topBit s.shreg) + 1 = s.cfg.tbit - 1 by omega,
        show s.cfg.tbit - 1 - s.cfg.th (topBit s.shreg) = 1 by omega]
      rfl
    rw [this] at h4
    exact h4.cast (by omega)
  · have h := counter_run (f := .fillLow) (g := .decideContinue) (n := s.cfg.tbit - 1) (c := s.cfg) (by omega)
      (fun u hu => by
        show Host.Outcome.next _ = _
        rw [hu]
        have : (u.tcnt.toNat + 2 = s.cfg.tbit) ↔ (u.tcnt.toNat + 1 = s.cfg.tbit - 1) := by omega
        simp only [this])
      (s.cfg.tbit - 2 - s.cfg.th (topBit s.shreg)) s4 rfl (by simp only [s4, if_neg he]) hr (by omega)
      (by
        show (BitVec.ofNat 16 (s.cfg.th (topBit s.shreg) + 1)).toNat + _ = _
        rw [BitVec.toNat_ofNat]
        omega)
    have h' := h.mono (Q := fun u => SlotFsm u.fsm ∧ u.gie = s.gie)
      fun u hu => ⟨.inr (.inr (.inr (.inr (.inr hu.1)))), hu.2⟩
    have hend : { s4 with
        tcnt := BitVec.ofNat 16 (s.cfg.tbit - 1), fsm := .decideContinue
        wave := List.replicate (s.cfg.tbit - 2 - s.cfg.th (topBit s.shreg)) (s4.level s4.cfg.strip) ++ s4.wave } =
        s.slotEnd := by
      have hlv : s4.level s4.cfg.strip = s.lowLevel := rfl
      rw [hlv]
      have hcons : ∀ (k : Nat) (l : List Bool), List.replicate k s.lowLevel ++ (s.lowLevel :: l) =
          List.replicate (k + 1) s.lowLevel ++ l := by
        intro k l
        rw [List.replicate_succ', List.append_assoc]
        rfl
      simp only [s4, State.slotEnd, State.beforeFall, hcons]
      rw [show s.cfg.tbit - 2 - s.cfg.th (topBit s.shreg) + 1 = s.cfg.tbit - 1 - s.cfg.th (topBit s.shreg) by omega]
    rw [hend] at h'
    exact (h4.trans h').cast (by omega)

/-- A slot up to its DECIDE state. -/
theorem slot_run {s : State} (hw : s.cfg.wf = true) (hr : s.ports.rst = false) (hf : s.fsm = .driveHigh) :
    RunWhile (fun u => SlotFsm u.fsm ∧ u.gie = s.gie) (s.cfg.tbit - 1) s s.slotEnd := by
  obtain ⟨hth2, hth⟩ := th_bounds hw (topBit s.shreg)
  exact ((high_phase hw hr hf).trans (low_phase hw hr)).cast (by omega)

end Sys2Proof.Machine
end

