-- ==== Sys2Proof/Laws/Frame.lean ====
section
/-! SUPPORT. Bytes and frames of the engine (44_bit_engine.md R152, R168): from the first DRIVE_HIGH state of a byte to
its last DECIDE state, and from there over the remaining bytes to RELEASE. -/

namespace Sys2Proof.Machine

open Sys2Proof

/-- The next `k` bits of a shift register, in the order they leave it. -/
def topBits : Nat → Byte → List Bool
  | 0, _ => []
  | k + 1, b => topBit b :: topBits k (shiftOut b)

theorem topBits_eight : ∀ b : Byte, topBits 8 b = byteBits b := by
  intro b
  simp [topBits, byteBits, topBit, shiftOut]

/-- What a line shows for a list of bits when its HIGH level reads `hi` and its LOW level `lo`. -/
def shown (c : Config) (hi lo : Bool) (bits : List Bool) : List Bool :=
  bits.flatMap fun b => List.replicate (c.th b) hi ++ List.replicate (c.tbit - c.th b) lo

theorem shown_append (c : Config) (hi lo : Bool) (l m : List Bool) :
    shown c hi lo (l ++ m) = shown c hi lo l ++ shown c hi lo m := List.flatMap_append

/-- On the strip's own line the record is the frame function's waveform. -/
theorem shown_true_false (c : Config) (bytes : List Byte) :
    shown c true false (frameBits bytes) = frameWave c bytes := by
  simp only [shown, frameBits, frameWave, List.flatMap_assoc]
  rfl

/-- The record after a slot, one sample short: its DECIDE step adds the last one. -/
theorem slotEnd_wave {s : State} (hw : s.cfg.wf = true) :
    s.lowLevel :: s.slotEnd.wave = (shown s.cfg s.highLevel s.lowLevel [topBit s.shreg]).reverse ++ s.wave := by
  obtain ⟨-, hth⟩ := th_bounds hw (topBit s.shreg)
  simp only [shown, List.flatMap_cons, List.flatMap_nil, List.append_nil, List.reverse_append, List.reverse_replicate,
    List.append_assoc, State.slotEnd]
  rw [show s.cfg.tbit - s.cfg.th (topBit s.shreg) = s.cfg.tbit - 1 - s.cfg.th (topBit s.shreg) + 1 by omega,
    List.replicate_succ]
  rfl

/-- The last DECIDE state of the byte in flight, with `k` bits to go from `s`. -/
def State.bitsEnd (s : State) (k : Nat) : State :=
  { s with
    fsm := .decideContinue
    tcnt := BitVec.ofNat 16 (s.cfg.tbit - 1)
    bitcnt := 1
    curbit := s.shreg.getLsbD (8 - k)
    shreg := s.shreg <<< k
    portval := clearBits (s.ioRead s.ioaddr) s.mask
    io := Memory.write s.io s.ioaddr (clearBits (s.ioRead s.ioaddr) s.mask)
    wave := ((shown s.cfg s.highLevel s.lowLevel (topBits k s.shreg)).reverse ++ s.wave).tail }

/-- The DRIVE_HIGH state of the next bit of the same byte. -/
def State.nextBit (s : State) : State :=
  { s with
    tcnt := 0
    bitcnt := s.bitcnt - 1
    curbit := topBit s.shreg
    shreg := shiftOut s.shreg
    portval := clearBits (s.ioRead s.ioaddr) s.mask
    io := Memory.write s.io s.ioaddr (clearBits (s.ioRead s.ioaddr) s.mask)
    wave := (shown s.cfg s.highLevel s.lowLevel [topBit s.shreg]).reverse ++ s.wave }

/-- A state of the engine that reads no byte. -/
def Sending (g : Bool) (u : State) : Prop := EngineFsm u.fsm ∧ u.gie = g ∧ u.readIndex = none

theorem slot_sending {s : State} (hw : s.cfg.wf = true) (hr : s.ports.rst = false) (hf : s.fsm = .driveHigh) :
    RunWhile (Sending s.gie) (s.cfg.tbit - 1) s s.slotEnd :=
  (slot_run hw hr hf).mono fun _ h => ⟨.inl h.1, h.2, h.1.reads_nothing⟩

theorem nextBit_run {s : State} (hw : s.cfg.wf = true) (hr : s.ports.rst = false) (hf : s.fsm = .driveHigh)
    (hb : s.bitcnt ≠ 1) : RunWhile (Sending s.gie) s.cfg.tbit s s.nextBit := by
  obtain ⟨hth2, hth⟩ := th_bounds hw (topBit s.shreg)
  have h1 := slot_sending hw hr hf
  have h2 : RunWhile (Sending s.gie) 1 s.slotEnd s.nextBit := by
    refine .one ⟨.inr rfl, rfl, by simpa [State.readIndex, State.slotEnd] using fun _ e => absurd e hb⟩ ?_
    rw [clock_run (s := s.slotEnd) hr]
    show sampled (execDecide s.slotEnd) = _
    unfold execDecide
    rw [if_pos (show s.slotEnd.bitcnt ≠ 1 from hb)]
    show Host.Outcome.next _ = _
    congr 1
    have hwave := slotEnd_wave hw
    unfold State.sample State.nextBit
    rw [← hwave, ← hf]
    rfl
  exact (h1.trans h2).cast (by omega)

theorem bits_run (k : Nat) : ∀ {s : State}, s.cfg.wf = true → s.ports.rst = false → s.fsm = .driveHigh →
    s.bitcnt.toNat = k → 1 ≤ k → k ≤ 8 →
      RunWhile (Sending s.gie) (k * s.cfg.tbit - 1) s (s.bitsEnd k) := by
  induction k with
  | zero => intros; omega
  | succ k ih =>
    intro s hw hr hf hbc h1 h8
    obtain ⟨hth2, hth⟩ := th_bounds hw (topBit s.shreg)
    by_cases hk : k = 0
    · subst hk
      have hb1 : s.bitcnt = 1 := BitVec.eq_of_toNat_eq hbc
      have hend : s.slotEnd = s.bitsEnd 1 := by
        have hwave := slotEnd_wave hw
        unfold State.bitsEnd topBits topBits
        rw [← hwave, ← hb1]
        rfl
      rw [← hend]
      exact (slot_sending hw hr hf).cast (by omega)
    · have hb1 : s.bitcnt ≠ 1 := by
        intro e
        rw [e] at hbc
        have : (1 : BitVec 4).toNat = 1 := rfl
        omega
      have h := ih (s := s.nextBit) hw hr hf
        (by
          show (s.bitcnt - 1).toNat = k
          have : (1 : BitVec 4).toNat = 1 := rfl
          rw [BitVec.toNat_sub, this]
          omega)
        (by omega) (by omega)
      have hend : s.nextBit.bitsEnd k = s.bitsEnd (k + 1) := by
        have hx : clearBits (s.nextBit.ioRead s.nextBit.ioaddr) s.nextBit.mask = clearBits (s.ioRead s.ioaddr) s.mask := by
          simp [State.nextBit, State.ioRead, clearBits_clearBits]
        have hio : Memory.write s.nextBit.io s.nextBit.ioaddr (clearBits (s.ioRead s.ioaddr) s.mask) =
            Memory.write s.io s.ioaddr (clearBits (s.ioRead s.ioaddr) s.mask) := by
          simp [State.nextBit]
        have hhi : s.nextBit.highLevel = s.highLevel := by
          simp [State.nextBit, State.highLevel, State.level, State.ioWrite, State.ioRead, clearBits_or_self]
        have hlo : s.nextBit.lowLevel = s.lowLevel := by
          simp [State.nextBit, State.lowLevel, State.level, State.ioWrite, State.ioRead, clearBits_clearBits]
        have hcur : (shiftOut s.shreg).getLsbD (8 - k) = s.shreg.getLsbD (8 - (k + 1)) := by
          simp only [shiftOut, BitVec.getLsbD_shiftLeft]
          have e : 8 - k - 1 = 8 - (k + 1) := by omega
          rw [e]
          simp [show 8 - k < 8 by omega, show ¬ (8 - k < 1) by omega]
        have hsh : shiftOut s.shreg <<< k = s.shreg <<< (k + 1) := by
          unfold shiftOut
          rw [← BitVec.shiftLeft_add, Nat.add_comm]
        have hwv : (shown s.cfg s.highLevel s.lowLevel (topBits k (shiftOut s.shreg))).reverse ++ s.nextBit.wave =
            (shown s.cfg s.highLevel s.lowLevel (topBits (k + 1) s.shreg)).reverse ++ s.wave := by
          show _ ++ (_ ++ s.wave) = _
          rw [← List.append_assoc, ← List.reverse_append, ← shown_append]
          rfl
        unfold State.bitsEnd
        rw [hx, hio, hhi, hlo]
        show State.mk _ _ _ _ _ (shiftOut s.shreg <<< k) _ ((shiftOut s.shreg).getLsbD (8 - k)) _ _ _ _ _ _ _ _ _ _ _ _ _ _
          ((shown s.cfg s.highLevel s.lowLevel (topBits k (shiftOut s.shreg))).reverse ++ s.nextBit.wave).tail _ = _
        rw [hcur, hsh, hwv]
        rfl
      rw [hend] at h
      refine ((nextBit_run hw hr hf hb1).trans h).cast ?_
      show s.cfg.tbit + (k * s.cfg.tbit - 1) = (k + 1) * s.cfg.tbit - 1
      have : 1 * s.cfg.tbit ≤ k * s.cfg.tbit := Nat.mul_le_mul_right _ (by omega)
      rw [Nat.succ_mul]
      omega

/-- A whole byte up to its last DECIDE state: `TBIT * 8 - 1` ticks. -/
theorem byte_run {s : State} (hw : s.cfg.wf = true) (hr : s.ports.rst = false) (hf : s.fsm = .driveHigh)
    (hb : s.bitcnt = 8) :
    RunWhile (Sending s.gie) (8 * s.cfg.tbit - 1) s (s.bitsEnd 8) :=
  bits_run 8 hw hr hf (by rw [hb]; rfl) (by omega) (by omega)

/-- The bytes still to be sent when the byte in SHREG has just been fetched and `n` more follow it. -/
def State.pendingBytes (s : State) (n : Nat) : List Byte := s.shreg :: (s.buf.drop s.ptr.toNat).take n

/-- The RELEASE state after the engine has sent the byte in SHREG and `n` more. -/
def State.engineEnd (s : State) (n : Nat) : State :=
  { s with
    fsm := .release
    tcnt := 0
    bitcnt := 1
    curbit := ((s.pendingBytes n).getLastD 0).getLsbD 0
    shreg := 0
    remain := 0
    ptr := s.ptr + BitVec.ofNat 16 n
    ok := true
    portval := clearBits (s.ioRead s.ioaddr) s.mask
    io := Memory.write s.io s.ioaddr (clearBits (s.ioRead s.ioaddr) s.mask)
    wave := (shown s.cfg s.highLevel s.lowLevel (frameBits (s.pendingBytes n))).reverse ++ s.wave }

/-- The DRIVE_HIGH state of the next byte. -/
def State.nextByte (s : State) (b : Byte) : State :=
  { s with
    tcnt := 0
    bitcnt := 8
    curbit := s.shreg.getLsbD 0
    shreg := b
    remain := s.remain - 1
    ptr := s.ptr + 1
    portval := clearBits (s.ioRead s.ioaddr) s.mask
    io := Memory.write s.io s.ioaddr (clearBits (s.ioRead s.ioaddr) s.mask)
    wave := (shown s.cfg s.highLevel s.lowLevel (byteBits s.shreg)).reverse ++ s.wave }

theorem shift_all_out (b : Byte) : b <<< 8 = 0 := by
  ext i hi
  simp only [BitVec.getElem_shiftLeft, show i < 8 from hi, decide_true, Bool.not_true, Bool.false_and]
  simp

/-- The record after a whole byte. -/
theorem bitsEnd_wave {s : State} (hw : s.cfg.wf = true) :
    s.lowLevel :: (s.bitsEnd 8).wave = (shown s.cfg s.highLevel s.lowLevel (byteBits s.shreg)).reverse ++ s.wave := by
  obtain ⟨-, hth⟩ := th_bounds hw (s.shreg.getLsbD 0)
  have hcut : ∃ l, (shown s.cfg s.highLevel s.lowLevel (byteBits s.shreg)).reverse = s.lowLevel :: l := by
    have hb : byteBits s.shreg = (byteBits s.shreg).dropLast ++ [s.shreg.getLsbD 0] := rfl
    rw [hb, shown_append, List.reverse_append]
    obtain ⟨m, hm⟩ : ∃ m, s.cfg.tbit - s.cfg.th (s.shreg.getLsbD 0) = m + 1 :=
      ⟨s.cfg.tbit - s.cfg.th (s.shreg.getLsbD 0) - 1, by omega⟩
    simp only [shown, List.flatMap_cons, List.flatMap_nil, List.append_nil, List.reverse_append,
      List.reverse_replicate]
    rw [hm, List.replicate_succ]
    exact ⟨_, rfl⟩
  obtain ⟨l, hl⟩ := hcut
  unfold State.bitsEnd
  rw [topBits_eight, hl]
  rfl

/-- DECIDE at the end of a byte that is not the last. -/
theorem nextByte_run {s : State} {b : Byte} (hw : s.cfg.wf = true) (hr : s.ports.rst = false) (hf : s.fsm = .driveHigh)
    (hb : s.bitcnt = 8) (hrem : 2 ≤ s.remain.toNat) (hbuf : s.buf[s.ptr.toNat]? = some b) :
    RunWhile (fun u => EngineFsm u.fsm ∧ u.gie = s.gie) (8 * s.cfg.tbit) s (s.nextByte b) := by
  obtain ⟨hth2, hth⟩ := th_bounds hw (topBit s.shreg)
  have h2 : RunWhile (fun u => EngineFsm u.fsm ∧ u.gie = s.gie) 1 (s.bitsEnd 8) (s.nextByte b) := by
    refine .one ⟨.inr rfl, rfl⟩ ?_
    rw [clock_run (s := s.bitsEnd 8) hr]
    show sampled (execDecide (s.bitsEnd 8)) = _
    have hne : ¬ ((s.bitsEnd 8).remain - 1 = 0) := by
      intro e
      have := congrArg BitVec.toNat e
      have h1 : (1 : Half).toNat = 1 := rfl
      have h0 : (0 : Half).toNat = 0 := rfl
      rw [BitVec.toNat_sub, h1, h0] at this
      have hlt := s.remain.isLt
      change (65536 - 1 + s.remain.toNat) % 65536 = 0 at this
      omega
    have hbyte : (s.bitsEnd 8).bufByte (s.bitsEnd 8).ptr.toNat = b := by
      show (match s.buf[s.ptr.toNat]? with | some x => x | none => _) = b
      rw [hbuf]
    have hdraw : (s.bitsEnd 8).drawsAfterRead (s.bitsEnd 8).ptr.toNat = s.draws := by
      show (match s.buf[s.ptr.toNat]? with | some _ => s.draws | none => s.draws + 1) = s.draws
      rw [hbuf]
    unfold execDecide
    rw [if_neg (show ¬ ((s.bitsEnd 8).bitcnt ≠ 1) from fun h => h rfl), if_neg hne, hbyte, hdraw]
    show Host.Outcome.next _ = _
    congr 1
    have hwave := bitsEnd_wave hw
    unfold State.sample State.nextByte
    rw [← hwave, ← hf]
    rfl
  exact (((byte_run hw hr hf hb).mono fun _ h => ⟨h.1, h.2.1⟩).trans h2).cast (by omega)

/-- DECIDE at the end of the last byte. -/
theorem lastByte_run {s : State} (hw : s.cfg.wf = true) (hr : s.ports.rst = false) (hf : s.fsm = .driveHigh)
    (hb : s.bitcnt = 8) (hrem : s.remain = 1) :
    RunWhile (fun u => EngineFsm u.fsm ∧ u.gie = s.gie) (8 * s.cfg.tbit) s (s.engineEnd 0) := by
  obtain ⟨hth2, hth⟩ := th_bounds hw (topBit s.shreg)
  have h2 : RunWhile (fun u => EngineFsm u.fsm ∧ u.gie = s.gie) 1 (s.bitsEnd 8) (s.engineEnd 0) := by
    refine .one ⟨.inr rfl, rfl⟩ ?_
    rw [clock_run (s := s.bitsEnd 8) hr]
    show sampled (execDecide (s.bitsEnd 8)) = _
    have hz : (s.bitsEnd 8).remain - 1 = 0 := by
      show s.remain - 1 = 0
      rw [hrem]
      rfl
    unfold execDecide
    rw [if_neg (show ¬ ((s.bitsEnd 8).bitcnt ≠ 1) from fun h => h rfl), if_pos hz, hz]
    show Host.Outcome.next _ = _
    congr 1
    have hwave := bitsEnd_wave hw
    have hp : s.pendingBytes 0 = [s.shreg] := rfl
    have hfb : frameBits [s.shreg] = byteBits s.shreg := by simp [frameBits]
    have hptr : s.ptr + BitVec.ofNat 16 0 = s.ptr := by simp
    unfold State.sample State.engineEnd
    rw [hp, hfb, ← hwave, ← shift_all_out s.shreg, hptr]
    rfl
  exact (((byte_run hw hr hf hb).mono fun _ h => ⟨h.1, h.2.1⟩).trans h2).cast (by omega)

/-- The engine from the first slot of a byte to RELEASE, with `n` bytes still in the buffer. -/
theorem engine_run (n : Nat) : ∀ {s : State}, s.cfg.wf = true → s.ports.rst = false → s.fsm = .driveHigh →
    s.bitcnt = 8 → s.remain.toNat = n + 1 → s.ptr.toNat + n ≤ s.buf.length → s.ptr.toNat + n < 65536 →
      RunWhile (fun u => EngineFsm u.fsm ∧ u.gie = s.gie) (8 * (n + 1) * s.cfg.tbit) s (s.engineEnd n) := by
  induction n with
  | zero =>
    intro s hw hr hf hb hrem _ _
    exact (lastByte_run hw hr hf hb (BitVec.eq_of_toNat_eq hrem)).cast (by omega)
  | succ n ih =>
    intro s hw hr hf hb hrem hlen h16
    obtain ⟨b, hbuf⟩ : ∃ b, s.buf[s.ptr.toNat]? = some b :=
      ⟨s.buf[s.ptr.toNat], List.getElem?_eq_getElem (by omega)⟩
    have hptr : (s.ptr + 1).toNat = s.ptr.toNat + 1 := half_succ (by omega)
    have h1 : (1 : Half).toNat = 1 := rfl
    have h := ih (s := s.nextByte b) hw hr hf rfl
      (by
        show (s.remain - 1).toNat = n + 1
        have := s.remain.isLt
        rw [BitVec.toNat_sub, h1]
        omega)
      (by show (s.ptr + 1).toNat + n ≤ s.buf.length; omega) (by show (s.ptr + 1).toNat + n < 65536; omega)
    have hpend : s.pendingBytes (n + 1) = s.shreg :: (s.nextByte b).pendingBytes n := by
      show s.shreg :: (s.buf.drop s.ptr.toNat).take (n + 1) = s.shreg :: b :: (s.buf.drop (s.ptr + 1).toNat).take n
      obtain ⟨hlt, hget⟩ := List.getElem?_eq_some_iff.mp hbuf
      rw [List.drop_eq_getElem_cons hlt, List.take_succ_cons, hget, hptr]
    have hend : (s.nextByte b).engineEnd n = s.engineEnd (n + 1) := by
      have hx : clearBits ((s.nextByte b).ioRead (s.nextByte b).ioaddr) (s.nextByte b).mask =
          clearBits (s.ioRead s.ioaddr) s.mask := by
        simp [State.nextByte, State.ioRead, clearBits_clearBits]
      have hio : Memory.write (s.nextByte b).io (s.nextByte b).ioaddr (clearBits (s.ioRead s.ioaddr) s.mask) =
          Memory.write s.io s.ioaddr (clearBits (s.ioRead s.ioaddr) s.mask) := by
        simp [State.nextByte]
      have hhi : (s.nextByte b).highLevel = s.highLevel := by
        simp [State.nextByte, State.highLevel, State.level, State.ioWrite, State.ioRead, clearBits_or_self]
      have hlo : (s.nextByte b).lowLevel = s.lowLevel := by
        simp [State.nextByte, State.lowLevel, State.level, State.ioWrite, State.ioRead, clearBits_clearBits]
      have hp : (s.nextByte b).ptr + BitVec.ofNat 16 n = s.ptr + BitVec.ofNat 16 (n + 1) := by
        show s.ptr + 1 + BitVec.ofNat 16 n = _
        rw [BitVec.add_assoc]
        congr 1
        apply BitVec.eq_of_toNat_eq
        rw [BitVec.toNat_add, h1, BitVec.toNat_ofNat, BitVec.toNat_ofNat]
        omega
      have hlast : (s.pendingBytes (n + 1)).getLastD 0 = ((s.nextByte b).pendingBytes n).getLastD 0 := by
        rw [hpend]
        rfl
      have hwv : (shown s.cfg s.highLevel s.lowLevel (frameBits ((s.nextByte b).pendingBytes n))).reverse ++
          (s.nextByte b).wave =
          (shown s.cfg s.highLevel s.lowLevel (frameBits (s.pendingBytes (n + 1)))).reverse ++ s.wave := by
        have hfb : frameBits (s.pendingBytes (n + 1)) =
            byteBits s.shreg ++ frameBits ((s.nextByte b).pendingBytes n) := by
          rw [hpend]
          simp [frameBits]
        rw [hfb, shown_append, List.reverse_append, List.append_assoc]
        rfl
      unfold State.engineEnd
      rw [hx, hio, hhi, hlo, hp, hlast]
      have hcfg : (s.nextByte b).cfg = s.cfg := rfl
      rw [hcfg, hwv]
      rfl
    rw [hend] at h
    refine ((nextByte_run hw hr hf hb (by omega) hbuf).trans h).cast ?_
    show 8 * s.cfg.tbit + 8 * (n + 1) * s.cfg.tbit = 8 * (n + 1 + 1) * s.cfg.tbit
    ring

end Sys2Proof.Machine
end

