-- ==== Sys2Proof/Laws/CallRun.lean ====
section
/-! SUPPORT. The orchestration states of a call (46_orchestration.md R207 to R209), tick by tick up to PRELOAD and from
RELEASE on, each state in closed form. -/

namespace Sys2Proof.Machine

open Sys2Proof

/-- The block is busy and GIE has a value. -/
def BusyWith (g : Bool) (u : State) : Prop := u.fsm ≠ .idle ∧ u.gie = g

/-- State 1: VALIDATE. -/
def State.accepted (s : State) (len : Half) (pin : Byte) : State :=
  { s.present len pin with
    fsm := .validate, len := len, pin := pin, err := .noError, ok := false
    wave := s.level s.cfg.strip :: s.wave }

theorem accept_tick {s : State} {len : Half} (pin : Byte) (h : Safety.MayCall s len) :
    clock runOp (s.present len pin) = .next (s.accepted len pin) := by
  obtain ⟨-, hf, hr, hb⟩ := h
  have hs : (s.present len pin).bufferServes len = true := (bufferServes_iff _ _).mpr hb
  rw [clock_run (s := s.present len pin) hr]
  show sampled (runOp s.fsm (s.present len pin)) = _
  rw [hf]
  show sampled (execIdle (s.present len pin)) = _
  unfold execIdle
  rw [if_pos (show (s.present len pin).ports.start = true from rfl), 
    if_pos (show (s.present len pin).bufferServes (s.present len pin).ports.reqLen = true from hs)]
  rfl

/-- State 2 after a refused length: DONE. -/
def State.tooMany (s : State) (len : Half) (pin : Byte) : State :=
  { s.accepted len pin with
    fsm := .done, err := .tooManyPixels, wave := List.replicate 2 (s.level s.cfg.strip) ++ s.wave }

theorem tooMany_tick {s : State} {len : Half} (pin : Byte) (hr : s.ports.rst = false) (hl : 21846 ≤ len.toNat) :
    clock runOp (s.accepted len pin) = .next (s.tooMany len pin) := by
  rw [clock_run (s := s.accepted len pin) hr]
  show sampled (execValidate (s.accepted len pin)) = _
  have hn : ¬ lengthFits len = true := by
    rw [lengthFits_iff]
    omega
  unfold execValidate
  rw [if_neg (show ¬ lengthFits (s.accepted len pin).len = true from hn)]
  rfl

/-- State 2: PININIT. -/
def State.validated (s : State) (len : Half) (pin : Byte) : State :=
  { s.accepted len pin with
    fsm := .pininit, remain := BitVec.ofNat 16 (wireBytes len)
    wave := List.replicate 2 (s.level s.cfg.strip) ++ s.wave }

theorem validate_tick {s : State} {len : Half} (pin : Byte) (hr : s.ports.rst = false) (hl : len.toNat ≤ 21845) :
    clock runOp (s.accepted len pin) = .next (s.validated len pin) := by
  rw [clock_run (s := s.accepted len pin) hr]
  show sampled (execValidate (s.accepted len pin)) = _
  unfold execValidate
  rw [if_pos (show lengthFits (s.accepted len pin).len = true from (lengthFits_iff len).mpr hl)]
  rfl

/-- What a port register holds with a pin's bit cleared. -/
def State.lowValue (s : State) (r : PinRef) : Nat := clearBits (s.ioRead r.addr) (bitMask r.bit)

/-- What the strip shows with a pin LOW, and with it HIGH. -/
def State.stripLow (s : State) (r : PinRef) : Bool := (s.ioWrite r.addr (s.lowValue r)).level s.cfg.strip
@[inherit_doc State.stripLow] def State.stripHigh (s : State) (r : PinRef) : Bool :=
  (s.ioWrite r.addr (s.ioRead r.addr ||| bitMask r.bit)).level s.cfg.strip

/-- State 3: ACQUIRE, the pin set up. -/
def State.setUp (s : State) (len : Half) (pin : Byte) (r : PinRef) : State :=
  { s.validated len pin with
    fsm := .acquire
    io := Memory.write s.io r.addr (s.lowValue r)
    outmode := PinSet.insert s.outmode r
    wave := s.stripLow r :: (List.replicate 2 (s.level s.cfg.strip) ++ s.wave) }

theorem setUp_tick {s : State} (len : Half) {pin : Byte} {r : PinRef} (hr : s.ports.rst = false)
    (hp : s.resolve pin = some r) : clock runOp (s.validated len pin) = .next (s.setUp len pin r) := by
  rw [clock_run (s := s.validated len pin) hr]
  show sampled (execPininit (s.validated len pin)) = _
  have hp' : (s.validated len pin).resolve (s.validated len pin).pin = some r := hp
  unfold execPininit State.pinConfigOutLow
  rw [hp']
  rfl

/-- State 4: RESOLVE, the guard taken. -/
def State.guarded (s : State) (len : Half) (pin : Byte) (r : PinRef) : State :=
  { s.setUp len pin r with
    fsm := .resolve, token := s.gie, gie := false
    wave := List.replicate 2 (s.stripLow r) ++ (List.replicate 2 (s.level s.cfg.strip) ++ s.wave) }

theorem acquire_tick {s : State} (len : Half) (pin : Byte) (r : PinRef) (hr : s.ports.rst = false) :
    clock runOp (s.setUp len pin r) = .next (s.guarded len pin r) := by
  rw [clock_run (s := s.setUp len pin r) hr]
  rfl

/-- State 5: PRELOAD, the target latched. -/
def State.targeted (s : State) (len : Half) (pin : Byte) (r : PinRef) : State :=
  { s.guarded len pin r with
    fsm := .preload, ioaddr := r.addr, mask := bitMask r.bit
    wave := List.replicate 3 (s.stripLow r) ++ (List.replicate 2 (s.level s.cfg.strip) ++ s.wave) }

theorem resolve_tick {s : State} (len : Half) {pin : Byte} {r : PinRef} (hr : s.ports.rst = false)
    (hp : s.resolve pin = some r) : clock runOp (s.guarded len pin r) = .next (s.targeted len pin r) := by
  rw [clock_run (s := s.guarded len pin r) hr]
  show sampled (execResolve (s.guarded len pin r)) = _
  have hp' : (s.guarded len pin r).resolve (s.guarded len pin r).pin = some r := hp
  unfold execResolve
  rw [hp']
  rfl

/-- State 6 when no bit is sent: RELEASE. -/
def State.emptyEnd (s : State) (len : Half) (pin : Byte) (r : PinRef) : State :=
  { s.targeted len pin r with
    fsm := .release, ptr := 0, ok := true
    wave := List.replicate 4 (s.stripLow r) ++ (List.replicate 2 (s.level s.cfg.strip) ++ s.wave) }

theorem preload_empty_tick {s : State} {len : Half} (pin : Byte) (r : PinRef) (hr : s.ports.rst = false) (hl : len = 0) :
    clock runOp (s.targeted len pin r) = .next (s.emptyEnd len pin r) := by
  rw [clock_run (s := s.targeted len pin r) hr]
  subst hl
  rfl

/-- State 6: the first DRIVE_HIGH. -/
def State.preloaded (s : State) (len : Half) (pin : Byte) (r : PinRef) (b : Byte) : State :=
  { s.targeted len pin r with
    fsm := .driveHigh, shreg := b, ptr := 1, bitcnt := 8, tcnt := 0
    wave := List.replicate 4 (s.stripLow r) ++ (List.replicate 2 (s.level s.cfg.strip) ++ s.wave) }

theorem wireBytes_toNat {len : Half} (hl : len.toNat ≤ 21845) : (BitVec.ofNat 16 (wireBytes len)).toNat = 3 * len.toNat := by
  rw [BitVec.toNat_ofNat]
  unfold wireBytes
  omega

theorem preload_tick {s : State} {len : Half} (pin : Byte) (r : PinRef) {b : Byte} (hr : s.ports.rst = false)
    (hl : len.toNat ≤ 21845) (h0 : len ≠ 0) (hb : s.buf[0]? = some b) :
    clock runOp (s.targeted len pin r) = .next (s.preloaded len pin r b) := by
  rw [clock_run (s := s.targeted len pin r) hr]
  show sampled (execPreload (s.targeted len pin r)) = _
  have hlen : len.toNat ≠ 0 := fun e => h0 (BitVec.eq_of_toNat_eq e)
  have hne : ¬ (s.targeted len pin r).remain = 0 := by
    intro e
    have h := congrArg BitVec.toNat e
    change (BitVec.ofNat 16 (wireBytes len)).toNat = 0 at h
    rw [wireBytes_toNat hl] at h
    omega
  have hbyte : (s.targeted len pin r).bufByte 0 = b := by
    show (match s.buf[0]? with | some x => x | none => _) = b
    rw [hb]
  have hdraw : (s.targeted len pin r).drawsAfterRead 0 = s.draws := by
    show (match s.buf[0]? with | some _ => s.draws | none => s.draws + 1) = s.draws
    rw [hb]
  unfold execPreload
  rw [if_neg hne, hbyte, hdraw]
  rfl

/-- From the first DRIVE_HIGH to RELEASE. -/
theorem send_run {s : State} {len : Half} (pin : Byte) (r : PinRef) {b : Byte} (hw : s.cfg.wf = true)
    (hr : s.ports.rst = false) (hl : len.toNat ≤ 21845) (h0 : len ≠ 0) (hlen : 3 * len.toNat ≤ s.buf.length) :
    RunWhile (fun u => EngineFsm u.fsm ∧ u.gie = false) (8 * (3 * len.toNat) * s.cfg.tbit) (s.preloaded len pin r b)
      ((s.preloaded len pin r b).engineEnd (3 * len.toNat - 1)) := by
  have hpos : len.toNat ≠ 0 := fun e => h0 (BitVec.eq_of_toNat_eq e)
  have h1 : (1 : Half).toNat = 1 := rfl
  have h := engine_run (3 * len.toNat - 1) (s := s.preloaded len pin r b) hw hr rfl rfl
    (by
      show (BitVec.ofNat 16 (wireBytes len)).toNat = _
      rw [wireBytes_toNat hl]
      omega)
    (by show (1 : Half).toNat + _ ≤ s.buf.length; omega) (by show (1 : Half).toNat + _ < _; omega)
  rw [show 3 * len.toNat - 1 + 1 = 3 * len.toNat by omega] at h
  exact h

/-- LATCH, the guard given back. -/
def State.latching (s : State) : State :=
  { s with fsm := .latch, gie := s.token, tcnt := 0, wave := s.level s.cfg.strip :: s.wave }

theorem release_tick {s : State} (hr : s.ports.rst = false) (hf : s.fsm = .release) (he : s.err = .noError) :
    clock runOp s = .next s.latching := by
  rw [clock_run hr, hf]
  show sampled (execRelease s) = _
  unfold execRelease
  rw [if_pos he]
  rfl

theorem latch_run {s : State} (hw : s.cfg.wf = true) (hr : s.ports.rst = false) (hf : s.fsm = .latch)
    (ht : s.tcnt.toNat = 0) :
    RunWhile (fun u => u.fsm = .latch ∧ u.gie = s.gie) s.cfg.latchTicks s
      { s with
        tcnt := BitVec.ofNat 16 s.cfg.latchTicks, fsm := .done
        wave := List.replicate s.cfg.latchTicks (s.level s.cfg.strip) ++ s.wave } := by
  have hb : s.cfg.latchTicks < 65536 := ((wf_iff _).mp hw).2.2.2.2.2.1
  exact counter_run (c := s.cfg) hb (fun u hu => by rw [← hu]; rfl) _ s rfl hf hr (latchTicks_pos hw) (by omega)

/-- IDLE after a call that ended well in RELEASE. -/
def State.returned (s : State) : State :=
  { s with
    fsm := .idle, gie := s.token, tcnt := BitVec.ofNat 16 s.cfg.latchTicks
    wave := List.replicate (s.cfg.latchTicks + 2) (s.level s.cfg.strip) ++ s.wave }

theorem return_run {s : State} (hw : s.cfg.wf = true) (hr : s.ports.rst = false) :
    RunWhile (BusyWith s.token) (s.cfg.latchTicks + 1) s.latching s.returned := by
  have h1 := latch_run (s := s.latching) hw hr rfl rfl
  have h1' := h1.mono (Q := BusyWith s.token) fun u hu => ⟨by rw [hu.1]; simp, hu.2⟩
  refine h1'.trans (.one ⟨by simp, rfl⟩ ?_)
  rw [clock_run (by exact hr)]
  show Host.Outcome.next (State.sample _) = _
  congr 1
  unfold State.returned State.sample
  have hrep : List.replicate (s.cfg.latchTicks + 2) (s.level s.cfg.strip) ++ s.wave =
      s.level s.cfg.strip :: (List.replicate s.cfg.latchTicks (s.level s.cfg.strip) ++
        (s.level s.cfg.strip :: s.wave)) := by
    rw [List.replicate_succ, List.replicate_succ', List.cons_append, List.append_assoc]
    rfl
  rw [hrep]
  rfl

end Sys2Proof.Machine
end

