-- ==== Sys2Proof/Laws/Observe.lean ====
section
/-! SUPPORT. What is observed of an undisturbed run (00_scope.md R9): the states a run visits, and the line of any pin
read off the record of a machine whose chain hangs on that pin. -/

namespace Sys2Proof.Machine

open Sys2Proof

theorem visited_one (s : State) : visited 1 s = [s] := by
  rw [visited]
  cases step s <;> rfl

theorem visited_succ {s t : State} (hs : Safety.Undisturbed s) (h : clock runOp s = .next t) (n : Nat) :
    visited (n + 1) s = s :: visited n t := by
  rw [visited, (step_undisturbed hs).trans h]

/-- The states of a run, and then those from its end on. -/
theorem visited_run {P : State → Prop} {n : Nat} {s t : State} (hs : Safety.Undisturbed s) (h : RunWhile P n s t)
    (m : Nat) : visited (n + m) s = visited n s ++ visited m t := by
  induction n generalizing s with
  | zero => cases h; rw [Nat.zero_add]; rfl
  | succ n ih =>
    obtain ⟨-, u, hu, hr⟩ := h
    rw [Nat.succ_add, visited_succ hs hu, visited_succ hs hu, ih (undisturbed_next hs hu) hr, List.cons_append]

theorem visited_length {P : State → Prop} {n : Nat} {s t : State} (hs : Safety.Undisturbed s) (h : RunWhile P n s t) :
    (visited n s).length = n := by
  induction n generalizing s with
  | zero => rfl
  | succ n ih =>
    obtain ⟨-, u, hu, hr⟩ := h
    rw [visited_succ hs hu, List.length_cons, ih (undisturbed_next hs hu) hr]

/-- Every state before the end of a run has the run's property, and the parameters of its start. -/
theorem visited_all {P : State → Prop} {n : Nat} {s t : State} (hs : Safety.Undisturbed s) (h : RunWhile P n s t) :
    ∀ u ∈ visited n s, P u ∧ u.cfg = s.cfg := by
  induction n generalizing s with
  | zero => intro u hu; cases hu
  | succ n ih =>
    obtain ⟨hp, v, hv, hr⟩ := h
    rw [visited_succ hs hv]
    intro u hu
    rcases List.mem_cons.mp hu with rfl | hu
    · exact ⟨hp, rfl⟩
    · have := ih (undisturbed_next hs hv) hr u hu
      exact ⟨this.1, this.2.trans (clock_frame hs.2.2 hv).1⟩

/-- The parameters at the end of a run. -/
theorem run_cfg {P : State → Prop} {n : Nat} {s t : State} (hs : Safety.Undisturbed s) (h : RunWhile P n s t) :
    t.cfg = s.cfg := by
  induction n generalizing s with
  | zero => rw [← h]
  | succ n ih =>
    obtain ⟨-, u, hu, hr⟩ := h
    exact (ih (undisturbed_next hs hu) hr).trans (clock_frame hs.2.2 hu).1

/-- An observation that is the same in every state before the end of a run. -/
theorem visited_map_const {α : Type} {f : State → α} {a : α} {P : State → Prop} {n : Nat} {s t : State}
    (hs : Safety.Undisturbed s) (h : RunWhile P n s t) (hf : ∀ u, P u → f u = a) :
    (visited n s).map f = List.replicate n a := by
  rw [List.eq_replicate_iff]
  refine ⟨by rw [List.length_map, visited_length hs h], fun b hb => ?_⟩
  obtain ⟨u, hu, rfl⟩ := List.mem_map.mp hb
  exact hf u (visited_all hs h u hu).1

/-- An observation that no state before the end of a run gives. -/
theorem visited_filterMap_none {α : Type} {f : State → Option α} {P : State → Prop} {n : Nat} {s t : State}
    (hs : Safety.Undisturbed s) (h : RunWhile P n s t) (hf : ∀ u, P u → f u = none) : (visited n s).filterMap f = [] := by
  rw [List.filterMap_eq_nil_iff]
  exact fun u hu => hf u (visited_all hs h u hu).1

/-- The same machine with the chain on another pin and another record. -/
def State.restrip (s : State) (r : PinRef) (w : List Bool) : State := { s with cfg := { s.cfg with strip := r }, wave := w }

theorem restrip_undisturbed {s : State} {r : PinRef} (w : List Bool) (hs : Safety.Undisturbed s)
    (hr : s.cfg.pinFits r = true) : Safety.Undisturbed (s.restrip r w) := by
  obtain ⟨h1, h2, h3⟩ := hs
  refine ⟨?_, h2, h3⟩
  obtain ⟨a, b, c, d, e, f, g, i, -⟩ := (wf_iff _).mp h1
  exact (wf_iff _).mpr ⟨a, b, c, d, e, f, g, i, hr⟩

/-- No operation reads the chain's pin or the record. -/
theorem runOp_restrip (f : Fsm) (s : State) (r : PinRef) (w : List Bool) :
    runOp f (s.restrip r w) = Safety.onNext (fun t => t.restrip r w) (runOp f s) := by
  have hres : (s.restrip r w).resolve (s.restrip r w).pin = s.resolve s.pin := rfl
  cases f
  case idle =>
    simp only [runOp, execIdle, apply_ite (Safety.onNext _)]
    rfl
  case validate =>
    simp only [runOp, execValidate, apply_ite (Safety.onNext _)]
    rfl
  case pininit =>
    simp only [runOp, execPininit, State.pinConfigOutLow, hres]
    cases s.resolve s.pin <;> rfl
  case resolve =>
    simp only [runOp, execResolve, hres]
    cases s.resolve s.pin <;> rfl
  case preload =>
    simp only [runOp, execPreload, apply_ite (Safety.onNext _)]
    rfl
  case decideContinue =>
    simp only [runOp, execDecide, apply_ite (Safety.onNext _)]
    rfl
  case release =>
    simp only [runOp, execRelease, apply_ite (Safety.onNext _)]
    rfl
  all_goals rfl

/-- A tick of the machine with its chain on another pin: the same tick, another sample. -/
theorem clock_restrip {s t : State} {r : PinRef} (w : List Bool) (hr : s.ports.rst = false)
    (h : clock runOp s = .next t) : clock runOp (s.restrip r w) = .next (t.restrip r (t.level r :: w)) := by
  rw [clock_run hr] at h
  rw [clock_run (s := s.restrip r w) hr]
  show sampled (runOp s.fsm (s.restrip r w)) = _
  rw [runOp_restrip]
  cases hop : runOp s.fsm s with
  | next u => rw [hop] at h; cases h; rfl
  | fault f => rw [hop] at h; cases h
  | refused e => rw [hop] at h; cases h

/-- The record of that machine gains the pin's level in every state of the run but the first. -/
theorem run_restrip {P : State → Prop} {n : Nat} {s t : State} (r : PinRef) (w : List Bool) (hs : Safety.Undisturbed s)
    (h : RunWhile P n s t) :
    RunWhile (fun _ => True) n (s.restrip r w)
      (t.restrip r (((visited (n + 1) s).tail.map fun u => u.level r).reverse ++ w)) := by
  induction n generalizing s w with
  | zero => cases h; rw [visited_one]; rfl
  | succ n ih =>
    obtain ⟨-, u, hu, hr⟩ := h
    refine ⟨trivial, _, clock_restrip w hs.2.2 hu, ?_⟩
    have key := ih (u.level r :: w) (undisturbed_next hs hu) hr
    have hv : visited (n + 1) u = u :: (visited (n + 1) u).tail := rfl
    rw [visited_succ hs hu, List.tail_cons, hv, List.map_cons, List.reverse_cons, List.append_assoc]
    exact key

/-- The waveform on a pin that resolves is its level, state by state. -/
theorem waveform_of_run {P : State → Prop} {n : Nat} {s t : State} {pin : Byte} {r : PinRef}
    (hs : Safety.Undisturbed s) (h : RunWhile P n s t) (hp : s.resolve pin = some r) :
    waveform pin (n + 1) s = (visited (n + 1) s).map fun u => u.level r := by
  have key : ∀ u ∈ visited (n + 1) s, u.pinLevel pin = some (u.level r) := by
    intro u hu
    have hc : u.cfg = s.cfg := by
      rw [visited_run hs h 1, visited_one] at hu
      rcases List.mem_append.mp hu with hu | hu
      · exact (visited_all hs h u hu).2
      · rw [List.mem_singleton.mp hu]
        exact run_cfg hs h
    show (resolveIn u.cfg.pinmap pin).map u.level = _
    rw [hc, show resolveIn s.cfg.pinmap pin = some r from hp]
    rfl
  exact (List.filterMap_congr key).trans (congrFun List.filterMap_eq_map' _)

end Sys2Proof.Machine
end

