-- ==== Sys2Proof/Laws/PerInstr.lean ====
section
/-! SUPPORT. EncodeFits, instruction by instruction: an encoding fits the width of its format
(30_encoding.md R90, R94, R95, R98). -/

namespace Sys2Proof.Laws.EncodeFits

open Sys2Proof Sys2Proof.Machine

/-- Under a legal parameter set the encoding of the instruction fits the width of its format. -/
def Statement (i : Instr) : Prop := ∀ c : Config, c.wf = true → (encode c i).bits < 2 ^ (encode c i).width

/-- A symbol's tick string fits the bit period. -/
theorem symbolBits_lt {th tbit : Nat} (h : th ≤ tbit) : symbolBits th tbit < 2 ^ tbit := by
  unfold symbolBits
  have hpos : 0 < 2 ^ th := Nat.two_pow_pos th
  have hsplit : 2 ^ tbit = 2 ^ th * 2 ^ (tbit - th) := by rw [← Nat.pow_add, Nat.add_sub_cancel' h]
  rw [hsplit]
  exact Nat.mul_lt_mul_of_pos_right (by omega) (Nat.two_pow_pos _)

/-- Every state code fits its four bits. -/
theorem codeWord_fits (f : Fsm) : f.codeWord.bits < 2 ^ f.codeWord.width := f.code.isLt

theorem setstripe (length : Half) (pin : Byte) : Statement (.setstripe length pin) := by
  intro c _
  have hl := length.isLt
  have hp := pin.isLt
  show pin.toNat * 2 ^ 16 + length.toNat < 2 ^ 24
  omega

theorem sym0 : Statement .sym0 := fun c h => symbolBits_lt (by have := th_bounds h false; simp [Config.th] at this; omega)
theorem sym1 : Statement .sym1 := fun c h => symbolBits_lt (by have := th_bounds h true; simp [Config.th] at this; omega)
theorem latchsym : Statement .latchsym := fun c _ => Nat.two_pow_pos c.latchTicks
theorem idle : Statement .idle := fun _ _ => codeWord_fits .idle
theorem validate : Statement .validate := fun _ _ => codeWord_fits .validate
theorem pininit : Statement .pininit := fun _ _ => codeWord_fits .pininit
theorem acquire : Statement .acquire := fun _ _ => codeWord_fits .acquire
theorem resolve : Statement .resolve := fun _ _ => codeWord_fits .resolve
theorem preload : Statement .preload := fun _ _ => codeWord_fits .preload
theorem driveHigh : Statement .driveHigh := fun _ _ => codeWord_fits .driveHigh
theorem extract : Statement .extract := fun _ _ => codeWord_fits .extract
theorem branchZero : Statement .branchZero := fun _ _ => codeWord_fits .branchZero
theorem branchOne : Statement .branchOne := fun _ _ => codeWord_fits .branchOne
theorem driveLow : Statement .driveLow := fun _ _ => codeWord_fits .driveLow
theorem fillLow : Statement .fillLow := fun _ _ => codeWord_fits .fillLow
theorem decideContinue : Statement .decideContinue := fun _ _ => codeWord_fits .decideContinue
theorem release : Statement .release := fun _ _ => codeWord_fits .release
theorem latch : Statement .latch := fun _ _ => codeWord_fits .latch
theorem done : Statement .done := fun _ _ => codeWord_fits .done

end Sys2Proof.Laws.EncodeFits
end

