-- ==== Sys2Proof/Tests/Slice0.lean ====
section
/-! SUPPORT. The model's own tests. Expected values are from spec/95_test_vectors.md (named V1 to V76, S1 to S11) or
written out from the tables of 30_encoding.md. Then one witness for each statement that has hypotheses. -/

namespace Sys2Proof.Tests

open Sys2Proof Sys2Proof.Machine Sys2Proof.Safety

/-! ## Helpers -/

/-- The example parameters of 95_test_vectors.md, the chain on pin 13. -/
def exampleCfg : Config :=
  { Config.default with pinmap := [(13, ⟨0x25, 5⟩), (2, ⟨0x2B, 2⟩)], strip := ⟨0x25, 5⟩ }

/-- A state in FSM state `f` of the example machine. -/
def at_ (f : Fsm) : State := { State.reset with fsm := f, cfg := exampleCfg }

/-- What an instruction does, seen through some fields. -/
def after {α : Type} (i : Instr) (s : State) (view : State → α) : Option α := (nextOf (exec i s)).map view

/-- The shortest legal 0 dwell of V76's corner: `T0H = 2`, so EXTRACT goes straight to DRIVE_LOW. -/
def cornerCfg : Config := { exampleCfg with t0h := 2, t1h := 23 }

/-! ## WellFormed: each clause of 00_scope.md R7 refuses a set that breaks it -/

theorem test_wf_default : Config.default.wf = true ∧ exampleCfg.wf = true ∧ cornerCfg.wf = true := by decide
theorem test_wf_v75 :
    { Config.default with tickNs := 25, t0h := 14, t1h := 36, tbit := 50, latchTicks := 2000 }.wf = true := by decide
theorem test_wf_t0h_too_short : { Config.default with t0h := 1 }.wf = false := by decide
theorem test_wf_t0h_not_below_t1h : { Config.default with t1h := 7 }.wf = false := by decide
theorem test_wf_t1h_too_long : { Config.default with t1h := 24 }.wf = false := by decide
theorem test_wf_t0h_500ns : { Config.default with t0h := 10 }.wf = false := by decide
theorem test_wf_latch_too_short : { Config.default with latchTicks := 999 }.wf = false := by decide
theorem test_wf_latch_not_in_tcnt : { Config.default with latchTicks := 65536 }.wf = false := by decide
theorem test_wf_pin_outside_the_port :
    { exampleCfg with pinmap := [(13, ⟨0x25, 8⟩)] }.wf = false ∧ { exampleCfg with strip := ⟨0x10000, 0⟩ }.wf = false ∧
      { exampleCfg with portW := 16, ioaddrW := 20, pinmap := [(13, ⟨0xFFFFF, 15⟩)] }.wf = true := by decide
theorem test_wf_slot_not_in_tcnt : { Config.default with tbit := 65537 }.wf = false := by decide
theorem test_nominal :
    Config.default.nominal = true ∧ Config.default.tl false = 18 ∧ Config.default.tl true = 7 ∧
      cornerCfg.nominal = false := by decide
theorem test_instr_ill_formed :
    Instr.sym0.wf { Config.default with t0h := 1 } = false ∧ Instr.sym1.wf { Config.default with t1h := 24 } = false ∧
      Instr.latchsym.wf { Config.default with latchTicks := 999 } = false := by decide
theorem test_bad_configuration_refused :
    step { State.reset with cfg := { Config.default with t0h := 1 } } = .refused .badConfiguration ∧
      step { State.reset with cfg := { Config.default with pinmap := [(0, ⟨0, 8⟩)] } } = .refused .badConfiguration :=
  ⟨rfl, rfl⟩

/-! ## Decode: words written out from 30_encoding.md R90, R94, R95, R98 -/

theorem test_decode_setstripe :
    decodeTableWord 24 0b000011010000000000000001 = some (.setstripe 1 13) ∧
      decodeTableWord 24 0b111111110101010101010110 = some (.setstripe 21846 255) := by decide
theorem test_decode_sym0 : decodeTableWord 25 0b1111111000000000000000000 = some .sym0 := by decide
theorem test_decode_sym1 : decodeTableWord 25 0b1111111111111111110000000 = some .sym1 := by decide
theorem test_decode_latchsym : decodeTableWord 1000 0 = some .latchsym := by decide
theorem test_decode_idle : decodeTableWord 4 0b0000 = some .idle := by decide
theorem test_decode_validate : decodeTableWord 4 0b0001 = some .validate := by decide
theorem test_decode_pininit : decodeTableWord 4 0b0010 = some .pininit := by decide
theorem test_decode_acquire : decodeTableWord 4 0b0011 = some .acquire := by decide
theorem test_decode_resolve : decodeTableWord 4 0b0100 = some .resolve := by decide
theorem test_decode_preload : decodeTableWord 4 0b0101 = some .preload := by decide
theorem test_decode_driveHigh : decodeTableWord 4 0b0110 = some .driveHigh := by decide
theorem test_decode_extract : decodeTableWord 4 0b0111 = some .extract := by decide
theorem test_decode_branchZero : decodeTableWord 4 0b1000 = some .branchZero := by decide
theorem test_decode_branchOne : decodeTableWord 4 0b1001 = some .branchOne := by decide
theorem test_decode_driveLow : decodeTableWord 4 0b1010 = some .driveLow := by decide
theorem test_decode_fillLow : decodeTableWord 4 0b1011 = some .fillLow := by decide
theorem test_decode_decideContinue : decodeTableWord 4 0b1100 = some .decideContinue := by decide
theorem test_decode_release : decodeTableWord 4 0b1101 = some .release := by decide
theorem test_decode_latch : decodeTableWord 4 0b1110 = some .latch := by decide
theorem test_decode_done : decodeTableWord 4 0b1111 = some .done := by decide
theorem test_decode_refuses :
    decodeTableWord 25 0b1111111100000000000000000 = none ∧ decodeTableWord 25 0 = none ∧
      decodeTableWord 1000 1 = none ∧ decodeTableWord 24 0x1000000 = none ∧ decodeTableWord 8 0x10 = none ∧
      decodeTableWord 12 0 = none := by decide

/-! ## One instruction each -/

theorem test_v1_idle_waits :
    after .idle { at_ .idle with err := .pinResolution } (fun t => (t.fsm, t.err, t.busy)) =
      some (.idle, .pinResolution, false) := by decide
theorem test_v3_idle_accepts :
    after .idle { at_ .idle with ok := true, ports := ⟨false, true, 0xFFFF, 0xFF⟩ }
      (fun t => (t.fsm, t.len, t.pin, t.err, t.ok)) = some (.validate, 65535, 255, .noError, false) := by decide
theorem test_v5_done :
    after .done { at_ .done with ok := true } (fun t => (t.fsm, t.ok, t.err)) = some (.idle, true, .noError) := by decide
theorem test_v5_done_flag : (at_ .done).doneFlag = true ∧ (at_ .done).busy = true := by decide
theorem test_v10_validate_passes :
    after .validate { at_ .validate with len := 21845 } (fun t => (t.fsm, t.remain)) = some (.pininit, 0xFFFF) := by
  decide
theorem test_v13_validate_exact :
    after .validate { at_ .validate with len := 43691, remain := 9 } (fun t => (t.fsm, t.err, t.remain)) =
      some (.done, .tooManyPixels, 9) := by decide
theorem test_v15_pininit :
    after .pininit { at_ .pininit with pin := 13, io := [(0x25, 0xA1)] } (fun t => (t.io, t.outmode, t.fsm)) =
      some ([(0x25, 0x81)], [⟨0x25, 5⟩], .acquire) := by decide
theorem test_v18_pininit_unresolvable :
    after .pininit { at_ .pininit with pin := 99, io := [(0x25, 0xA1), (0x2B, 0xFF)] }
      (fun t => (t.io, t.outmode, t.err, t.fsm)) =
      some ([(0x25, 0xA1), (0x2B, 0xFF)], [], .noError, .acquire) := by decide
theorem test_v23_acquire :
    after .acquire { at_ .acquire with gie := true } (fun t => (t.token, t.gie, t.fsm)) = some (true, false, .resolve) := by
  decide
theorem test_v20_resolve :
    after .resolve { at_ .resolve with pin := 2 } (fun t => (t.ioaddr, t.mask, t.fsm)) = some (0x2B, 0x04, .preload) := by
  decide
theorem test_v21_resolve_fails :
    after .resolve { at_ .resolve with pin := 99, mask := 0x10 } (fun t => (t.err, t.mask, t.fsm)) =
      some (.pinResolution, 0x10, .release) := by decide
theorem test_v31_preload :
    after .preload { at_ .preload with remain := 6, buf := [0xA5, 1, 2, 3, 4, 5] }
      (fun t => (t.shreg, t.ptr, t.bitcnt, t.tcnt, t.fsm)) = some (0xA5, 1, 8, 0, .driveHigh) := by decide
theorem test_v32_preload_empty :
    after .preload { at_ .preload with ptr := 7, bitcnt := 3 } (fun t => (t.ptr, t.ok, t.bitcnt, t.fsm)) =
      some (0, true, 3, .release) := by decide
theorem test_v33_drive_high :
    after .driveHigh { at_ .driveHigh with ioaddr := 0x25, mask := 0x20, io := [(0x25, 0x81)] }
      (fun t => (t.io, t.portval, t.tcnt, t.fsm)) = some ([(0x25, 0xA1)], 0xA1, 1, .extract) := by decide
theorem test_v40_extract :
    after .extract { at_ .extract with shreg := 0x7F, curbit := true } (fun t => (t.curbit, t.shreg, t.tcnt, t.fsm)) =
      some (false, 0xFE, 2, .branchZero) := by decide
theorem test_v76_extract_corner :
    after .extract { at_ .extract with cfg := cornerCfg, shreg := 0x7F } (fun t => (t.tcnt, t.fsm)) =
      some (2, .driveLow) := by decide
theorem test_v43_branch_zero :
    after .branchZero { at_ .branchZero with tcnt := 6 } (fun t => (t.tcnt, t.fsm)) = some (7, .driveLow) := by decide
theorem test_v44_branch_one :
    after .branchOne { at_ .branchOne with tcnt := 6 } (fun t => (t.tcnt, t.fsm)) = some (7, .branchOne) := by decide
theorem test_v45_branch_one :
    after .branchOne { at_ .branchOne with tcnt := 17 } (fun t => (t.tcnt, t.fsm)) = some (18, .driveLow) := by decide
theorem test_v48_drive_low_stale :
    after .driveLow
      { at_ .driveLow with portval := 0xA1, mask := 0x20, ioaddr := 0x25, tcnt := 7, io := [(0x25, 0xA2)] }
      (fun t => (t.io, t.portval, t.tcnt, t.fsm)) = some ([(0x25, 0x81)], 0x81, 8, .fillLow) := by decide
theorem test_v49_fill_low :
    after .fillLow { at_ .fillLow with tcnt := 8 } (fun t => (t.tcnt, t.fsm)) = some (9, .fillLow) := by decide
theorem test_v50_fill_low :
    after .fillLow { at_ .fillLow with tcnt := 23 } (fun t => (t.tcnt, t.fsm)) = some (24, .decideContinue) := by decide
theorem test_v53_decide :
    after .decideContinue { at_ .decideContinue with bitcnt := 1, remain := 3, ptr := 1, buf := [0, 0xFF, 0x80] }
      (fun t => (t.remain, t.shreg, t.ptr, t.bitcnt, t.fsm)) = some (2, 0xFF, 2, 8, .driveHigh) := by decide
theorem test_v55_decide_last :
    after .decideContinue { at_ .decideContinue with bitcnt := 1, remain := 1, ptr := 3, tcnt := 24 }
      (fun t => (t.remain, t.ok, t.tcnt, t.ptr, t.bitcnt, t.fsm)) = some (0, true, 0, 3, 1, .release) := by decide
theorem test_v25_release :
    after .release { at_ .release with token := true, tcnt := 9 } (fun t => (t.gie, t.tcnt, t.fsm)) =
      some (true, 0, .latch) := by decide
theorem test_v27_release_after_error :
    after .release { at_ .release with token := true, tcnt := 9, err := .pinResolution }
      (fun t => (t.gie, t.tcnt, t.fsm)) = some (true, 9, .done) := by decide
theorem test_v58_latch :
    after .latch { at_ .latch with tcnt := 998 } (fun t => (t.tcnt, t.fsm)) = some (999, .latch) := by decide
theorem test_v59_latch :
    after .latch { at_ .latch with tcnt := 999 } (fun t => (t.tcnt, t.fsm)) = some (1000, .done) := by decide
theorem test_s1_sym0 :
    after .sym0 { at_ .idle with io := [(0x25, 0x01)] } (fun t => (levelRuns t.trace, t.io)) =
      some ([(true, 7), (false, 18)], [(0x25, 0x01)]) := by decide
theorem test_s1_sym1 :
    after .sym1 (at_ .idle) (fun t => (levelRuns t.trace, t.io)) = some ([(true, 18), (false, 7)], []) := by decide
theorem test_latchsym :
    after .latchsym { at_ .idle with io := [(0x25, 0x21)], cfg := { exampleCfg with latchTicks := 3 } }
      (fun t => (t.trace, t.io)) = some ([false, false, false], [(0x25, 0x01)]) := by decide
theorem test_v73_setstripe_too_many :
    after (.setstripe 21846 13) { at_ .idle with gie := true }
      (fun t => (t.fsm, t.ok, t.err, t.gie, t.wave.length)) = some (.idle, false, .tooManyPixels, true, 3) := by decide
theorem test_v74_setstripe_unresolvable :
    after (.setstripe 1 99) { at_ .idle with gie := true, buf := [1, 2, 3] }
      (fun t => (t.fsm, t.ok, t.err, t.gie, t.wave.length)) = some (.idle, false, .pinResolution, true, 7) := by decide

/-! ## Bytes on the wire and the receiver -/

theorem test_v62_byte_bits : byteBits 0x80 = [true, false, false, false, false, false, false, false] := by decide
theorem test_v65_byte_bits : byteBits 0x3C = [false, false, true, true, true, true, false, false] := by decide
theorem test_v67_v68_receiver_bands :
    receiveRun Config.default (true, 3) = [.invalid] ∧ receiveRun Config.default (true, 4) = [.bit false] ∧
      receiveRun Config.default (true, 10) = [.bit false] ∧ receiveRun Config.default (true, 12) = [.invalid] ∧
      receiveRun Config.default (true, 15) = [.bit true] ∧ receiveRun Config.default (true, 21) = [.bit true] ∧
      receiveRun Config.default (true, 22) = [.invalid] ∧ receiveRun Config.default (false, 999) = [] ∧
      receiveRun Config.default (false, 1000) = [.frameEnd] := by decide
theorem test_pixel_order : pixelBytes [⟨1, 2, 3⟩, ⟨4, 5, 6⟩] = [1, 2, 3, 4, 5, 6] := by decide

/-! ## The step and the placed word -/

theorem test_step_runs_placed_request :
    (nextOf (step (State.reset.withFetchWord 24 0))).map (fun t => (t.fsm, t.err, t.agenda)) =
      some (.idle, .pinResolution, []) := by decide
theorem test_step_runs_placed_symbol :
    (nextOf (step (State.reset.withFetchWord 25 0b1111111000000000000000000))).map
      (fun t => (levelRuns t.trace, t.agenda)) = some ([(true, 7), (false, 18)], []) := by decide
theorem test_step_runs_placed_state_code :
    (nextOf (step (State.reset.withFetchWord 4 0b0011))).map (fun t => (t.fsm, t.agenda)) = some (.resolve, []) := by
  decide
theorem test_reset_tick :
    (nextOf (step { at_ .latch with gie := true, io := [(0x25, 1)], ports := ⟨true, true, 5, 5⟩ })).map
      (fun t => (t.fsm, t.err, t.ok, t.gie, t.ioRead 0x25)) = some (.idle, .noError, false, true, 1) := by decide
theorem test_environment_moves_land_first :
    (nextOf (step { at_ .acquire with agenda := [.tick ⟨⟨false, false, 0, 0⟩, [.gieWrite true, .ioWrite 0x25 0x20]⟩] })).map
      (fun t => (t.token, t.gie, t.io, t.wave)) = some (true, false, [(0x25, 0x20)], [true]) := by decide

theorem test_lost_call_binds_no_buffer :
    (nextOf (step { at_ .latch with buf := [1, 2, 3], agenda := [.call 1 13 [7, 8, 9]] })).map
      (fun t => (t.fsm, t.tcnt, t.buf)) = some (.latch, 1, [1, 2, 3]) := by decide
theorem test_wide_port :
    after .driveLow
      { at_ .driveLow with
        cfg := { exampleCfg with portW := 16 }, portval := 0x8100, mask := 0x8000, ioaddr := 0x25, tcnt := 7 }
      (fun t => (t.io, t.portval)) = some ([(0x25, 0x0100)], 0x0100) := by decide
theorem test_v74_schedule :
    (visited 8 ({ at_ .idle with gie := true, buf := [1, 2, 3] }.present 1 99)).map (fun u => (u.fsm, u.gie)) =
      [(.idle, true), (.validate, true), (.pininit, true), (.acquire, true), (.resolve, false), (.release, false),
        (.done, true), (.idle, true)] := by decide
theorem test_waveform_is_of_the_requests_pin :
    waveform 2 6 ({ at_ .idle with buf := [1, 2, 3], io := [(0x25, 0x20), (0x2B, 0xFF)] }.present 1 2) =
      [true, true, true, false, false, false] := by decide

/-! ## Witnesses: states and operands that meet all hypotheses of a statement together -/

/-- A state in the middle of a slot, on the target of pin 13. -/
def inSlot (f : Fsm) (tcnt : Half) : State :=
  { at_ f with
    len := 1, pin := 13, remain := 3, ptr := 1, bitcnt := 8, shreg := 0x80, tcnt := tcnt, ioaddr := 0x25, mask := 0x20
    portval := 0x20, buf := [0x80, 0xFF, 0x01] }

/-- The host ready to call with a buffer of `n` bytes. -/
def ready (n : Nat) : State := { at_ .idle with buf := List.replicate n 0 }

/-- The same host with a request on the ports. -/
def asking (n : Nat) (len : Half) : State := { ready n with ports := ⟨false, true, len, 13⟩ }

theorem asking_length (n : Nat) (len : Half) : (asking n len).buf.length = n := List.length_replicate

theorem ready_mayCall (n : Nat) (len : Half) (h : len.toNat ≤ 21845 → 3 * len.toNat ≤ n) : MayCall (ready n) len :=
  ⟨by show exampleCfg.wf = true; decide, rfl, rfl, fun hl => by
    have := h hl
    simpa [ready] using this⟩

theorem inSlot_inEngine (f : Fsm) (tcnt : Half) : InEngine (inSlot f tcnt) :=
  ⟨rfl, rfl, ⟨5, by show 5 < 8; decide, bitMask_testBit 5⟩,
    by show 1 ≤ (8#4).toNat; decide, by show (8#4).toNat ≤ 8; decide, by show 1 ≤ (3#16).toNat; decide⟩

theorem witness_ResetClearsFsmAndResultOnly :
    ∃ s : State, s.cfg.wf = true ∧ s.agenda = [] ∧ s.ports.rst = true ∧ s.fsm = .latch :=
  ⟨{ at_ .latch with ports := ⟨true, false, 0, 0⟩ }, by decide⟩
theorem witness_ResetInputResetsTheBlock :
    ∃ (s : State) (input : TickInput) (rest : List Event) (u : State), s.cfg.wf = true ∧
      s.agenda = .tick input :: rest ∧ input.ports.rst = true ∧ u = { s with agenda := rest }.applyInput input ∧
      s.fsm = .fillLow :=
  ⟨{ inSlot .fillLow 9 with agenda := [.tick ⟨⟨true, false, 0, 0⟩, [.gieWrite true]⟩] }, _, _, _, by decide, rfl, rfl,
    rfl, rfl⟩
theorem witness_StepRunsTheDecodedInstruction_tick :
    ∃ (s : State) (i : Instr), s.cfg.wf = true ∧ s.agenda = [] ∧ s.ports.rst = false ∧ decode s.cfg s.fsm.codeWord = some i :=
  ⟨at_ .done, .done, by decide⟩
theorem witness_StepRunsTheDecodedInstruction_input :
    ∃ (s : State) (input : TickInput) (rest : List Event) (i : Instr), s.cfg.wf = true ∧
      s.agenda = .tick input :: rest ∧ input.ports.rst = false ∧ decode s.cfg s.fsm.codeWord = some i :=
  ⟨{ at_ .acquire with agenda := [.tick ⟨⟨false, false, 0, 0⟩, [.gieWrite true]⟩] }, _, _, .acquire, by decide, rfl, rfl,
    by decide⟩
theorem witness_StepRunsTheDecodedInstruction_call :
    ∃ (s : State) (i : Instr), s.cfg.wf = true ∧ s.agenda = [.call 1 13 [1, 2, 3]] ∧
      decode s.cfg ⟨.request, 24, requestWord 1 13⟩ = some i :=
  ⟨{ at_ .idle with agenda := [.call 1 13 [1, 2, 3]] }, .setstripe 1 13, by decide, rfl, by decide⟩
theorem witness_StepRunsTheDecodedInstruction_lost :
    ∃ (s : State) (i : Instr), s.cfg.wf = true ∧ s.agenda = [.call 1 13 [1, 2, 3]] ∧ s.fsm ≠ .idle ∧
      decode s.cfg ⟨.request, 24, requestWord 1 13⟩ = some i :=
  ⟨{ inSlot .latch 7 with agenda := [.call 1 13 [1, 2, 3]] }, .setstripe 1 13, by decide, rfl, by decide, by decide⟩
theorem witness_StepRunsTheDecodedInstruction_wire :
    ∃ (s : State) (i : Instr), s.cfg.wf = true ∧ s.agenda = [.wire .one] ∧
      decode s.cfg (encode s.cfg Symbol.one.instr) = some i :=
  ⟨{ at_ .idle with agenda := [.wire .one] }, .sym1, by decide, rfl, by decide⟩
theorem witness_DecodeOfEncodeIsTheInstruction :
    ∃ (c : Config) (i : Instr), c.wf = true ∧ i.wf c = true ∧ i = .setstripe 0xFFFF 0xFF :=
  ⟨exampleCfg, .setstripe 0xFFFF 0xFF, by decide⟩
theorem witness_OnlyEncodingsDecode :
    ∃ (c : Config) (w : Code) (i : Instr), c.wf = true ∧ decode c w = some i ∧ w = ⟨.wire, 1000, 0⟩ :=
  ⟨exampleCfg, _, .latchsym, by decide, by decide, rfl⟩
theorem witness_StateCodesAreTotal : ∃ f g : Fsm, f.instr = g.instr := ⟨.latch, .latch, rfl⟩
theorem witness_IdleAcceptsARequestOrWaits_idle : (at_ .idle).ports.start = false := by decide
theorem witness_IdleAcceptsARequestOrWaits_passes :
    ∃ s : State, s.ports.start = true ∧ s.ports.reqLen = 21845 ∧
      (s.ports.reqLen.toNat ≤ 21845 → 3 * s.ports.reqLen.toNat ≤ s.buf.length) :=
  ⟨asking 65535 21845, rfl, rfl, fun _ => by rw [asking_length]; decide⟩
theorem witness_IdleAcceptsARequestOrWaits_refused :
    ∃ s : State, s.ports.start = true ∧ s.ports.reqLen = 21846 ∧ s.buf = [] ∧
      (s.ports.reqLen.toNat ≤ 21845 → 3 * s.ports.reqLen.toNat ≤ s.buf.length) :=
  ⟨asking 0 21846, rfl, rfl, rfl, fun h => absurd h (by decide)⟩
theorem witness_IdleAcceptsARequestOrWaits_busy : ∃ f : Fsm, f ≠ .idle := ⟨.done, by decide⟩
theorem witness_ShortBufferIsRefused :
    ∃ s : State, s.ports.start = true ∧ s.ports.reqLen.toNat ≤ 21845 ∧ s.buf.length < 3 * s.ports.reqLen.toNat ∧
      s.buf.length = 65534 :=
  ⟨asking 65534 21845, rfl, by show (21845#16).toNat ≤ 21845; decide, by rw [asking_length]; decide, asking_length _ _⟩
theorem witness_ValidateComparesTheExactProduct :
    (21845#16).toNat * 3 ≤ 65535 ∧ 65535 < (21846#16).toNat * 3 ∧ 21846 ≤ (21846#16).toNat := by decide
theorem witness_PininitSetsThePinLowAndOutput :
    (at_ .pininit).resolve (at_ .pininit).pin = none ∧
      { at_ .pininit with pin := 13 }.resolve 13 = some ⟨0x25, 5⟩ := by decide
theorem witness_ReleaseRestoresInterruptEnable :
    (at_ .release).err = .noError ∧ { at_ .release with err := .pinResolution }.err ≠ .noError := by decide
theorem witness_ResolveLatchesAOneHotTarget :
    (at_ .resolve).resolve (at_ .resolve).pin = none ∧ { at_ .resolve with pin := 2 }.resolve 2 = some ⟨0x2B, 2⟩ := by
  decide
theorem witness_PreloadTestsForZeroAndFetches :
    (at_ .preload).remain = 0 ∧ (inSlot .preload 0).remain ≠ 0 ∧ (inSlot .preload 0).buf = [0x80, 0xFF, 0x01] ∧
      { inSlot .preload 0 with remain := 1, buf := [] }.remain ≠ 0 := by decide
theorem witness_ExtractShiftsOutTheTopBit :
    { at_ .extract with cfg := cornerCfg }.cfg.th false = 2 ∧ (at_ .extract).cfg.th false ≠ 2 := by decide
theorem witness_FillersCountToTheirEdge : (inSlot .fillLow 65534).tcnt.toNat < 65535 := by decide
theorem witness_DecideClosesBothLoops :
    (inSlot .decideContinue 24).bitcnt ≠ 1 ∧
      (∃ s : State, s.bitcnt = 1 ∧ s.remain = 1) ∧
      (∃ s : State, s.bitcnt = 1 ∧ s.remain ≠ 1 ∧ s.buf[s.ptr.toNat]? = some 0x01) ∧
      ∃ s : State, s.bitcnt = 1 ∧ s.remain ≠ 1 ∧ s.buf[s.ptr.toNat]? = none :=
  ⟨by decide, ⟨{ inSlot .decideContinue 24 with bitcnt := 1, remain := 1, ptr := 3 }, by decide⟩,
    ⟨{ inSlot .decideContinue 24 with bitcnt := 1, remain := 2, ptr := 2 }, by decide⟩,
    ⟨{ inSlot .decideContinue 24 with bitcnt := 1, remain := 2, ptr := 3 }, by decide⟩⟩
theorem witness_OperationsFollowTheStateGraph : ∃ s t : State, exec s.fsm.instr s = .next t := ⟨inSlot .driveLow 7, _, rfl⟩
theorem witness_RegistersHaveTheirOnlyWriters :
    ∃ (f : Fsm) (s t : State), exec f.instr s = .next t ∧ f = .latch := ⟨.latch, inSlot .latch 7, _, rfl, rfl⟩
theorem witness_RegistersHaveTheirOnlyWriters_tcnt :
    ∃ s t u : State, exec Fsm.resolve.instr s = .next t ∧ exec Fsm.done.instr s = .next u := ⟨inSlot .resolve 7, _, _, rfl, rfl⟩
theorem witness_OnlyTheEdgesAndTheSetUpStoreToIO :
    ∃ (s t u v : State), exec Fsm.driveHigh.instr s = .next t ∧ exec Fsm.pininit.instr s = .next u ∧
      exec Fsm.fillLow.instr s = .next v := ⟨inSlot .driveHigh 0, _, _, _, rfl, rfl, rfl⟩
theorem witness_NothingWritesTheBufferOrThePinTable : ∃ s t : State, exec .sym1 s = .next t := ⟨at_ .idle, _, rfl⟩
theorem witness_FallingEdgeWritesBackTheRisingRead :
    ∃ s u w t x y : State, exec .driveHigh s = .next u ∧ w.portval = u.portval ∧ w.mask = u.mask ∧ w.ioaddr = u.ioaddr ∧
      exec .driveLow w = .next t ∧ x.ioaddr = s.ioaddr ∧ exec .driveHigh x = .next y :=
  ⟨inSlot .driveHigh 0, _, { inSlot .driveLow 7 with io := [(0x25, 0xA2)] }, _,
    inSlot .driveHigh 0, _, rfl, rfl, rfl, rfl, rfl, rfl, rfl⟩
theorem witness_OutputPortsShowTheStores :
    (inSlot .driveHigh 0).outPorts.ioWe = true ∧ (inSlot .acquire 0).outPorts.gieWe = true ∧
      (inSlot .fillLow 9).outPorts.ioWe = false ∧ (inSlot .fillLow 9).outPorts.cfgReq = false ∧
      (inSlot .fillLow 9).outPorts.gieWe = false ∧
      (inSlot .pininit 0).outPorts.cfgReq = true ∧
      (inSlot .pininit 0).resolve (inSlot .pininit 0).outPorts.resPin = some ⟨0x25, 5⟩ ∧
      (at_ .pininit).outPorts.cfgReq = true ∧ (at_ .pininit).resolve (at_ .pininit).outPorts.resPin = none := by decide
theorem witness_ExtractSendsMostSignificantBitFirst :
    ({ inSlot .extract 1 with shreg := 0xA5 }.shreg = 0xA5#8 <<< (1 - 1)) ∧
      ({ inSlot .extract 1 with shreg := 0x80 }.shreg = 0xA5#8 <<< (8 - 1)) := by decide
theorem witness_StepKeepsTheCallInvariant : ∃ s t : State, CallInv s ∧ step s = .next t ∧ s.fsm = .driveHigh :=
  ⟨inSlot .driveHigh 0, _, ⟨inSlot_inEngine _ _, rfl⟩, rfl, rfl⟩
theorem witness_StepKeepsTheCanonicalForm :
    ∃ s t : State, Canonical s ∧ step s = .next t ∧ s.io = [(0x25, 0x81)] :=
  ⟨{ inSlot .driveHigh 0 with io := [(0x25, 0x81)] }, _, by constructor <;> decide, rfl, rfl⟩
theorem witness_GuardIsHeldUntilReleased :
    ∃ s t u : State, Undisturbed s ∧ step s = .next t ∧ s.fsm = .acquire ∧
      Undisturbed (inSlot .latch 7) ∧ step (inSlot .latch 7) = .next u ∧ Guarded .release ∧ ¬ Guarded .latch :=
  ⟨inSlot .acquire 0, _, _, ⟨by decide, rfl, rfl⟩, rfl, rfl, ⟨by decide, rfl, rfl⟩, rfl, by simp [Guarded],
    by simp [Guarded]⟩
theorem witness_SlotSendsOneSymbol :
    ∃ s : State, Undisturbed s ∧ s.fsm = .driveHigh ∧ s.tcnt = 0 ∧ s.bitcnt ≠ 1 ∧ s.ioaddr = s.cfg.strip.addr ∧
      ∀ i : Nat, s.mask.testBit i = decide (i = s.cfg.strip.bit) :=
  ⟨inSlot .driveHigh 0, ⟨by decide, rfl, rfl⟩, rfl, rfl, by decide, rfl, bitMask_testBit 5⟩
theorem witness_LatchHoldsForLatchTicks : ∃ s : State, Undisturbed s ∧ s.fsm = .latch ∧ s.tcnt = 0 :=
  ⟨inSlot .latch 0, ⟨by decide, rfl, rfl⟩, rfl, rfl⟩
theorem witness_CallIsTheRunOfItsTicks : ∃ (s : State) (len : Half), MayCall s len ∧ s.agenda = [] :=
  ⟨ready 65535, 21845, ready_mayCall _ _ (by decide), rfl⟩
theorem witness_CallRefusesTooManyPixels : ∃ (s : State) (len : Half), MayCall s len ∧ 21846 ≤ len.toNat :=
  ⟨ready 0, 21846, ready_mayCall _ _ (by decide), by decide⟩
theorem witness_CallReportsAnUnresolvablePin :
    ∃ (s : State) (len : Half) (pin : Byte), MayCall s len ∧ len.toNat ≤ 21845 ∧ s.resolve pin = none :=
  ⟨ready 3, 1, 99, ready_mayCall _ _ (by decide), by decide, by decide⟩
theorem witness_CallSucceedsForAResolvablePin :
    ∃ (s : State) (len : Half) (pin : Byte) (r : PinRef) (b : Byte), MayCall s len ∧ len.toNat ≤ 21845 ∧
      s.resolve pin = some r ∧ len ≠ 0 ∧ s.buf[3 * len.toNat - 1]? = some b :=
  ⟨ready 3, 1, 2, ⟨0x2B, 2⟩, 0, ready_mayCall _ _ (by decide), by decide, by decide, by decide, by decide⟩
theorem witness_CallSucceedsForAResolvablePin_empty :
    ∃ (s : State) (len : Half) (pin : Byte) (r : PinRef), MayCall s len ∧ s.resolve pin = some r ∧ len = 0 :=
  ⟨ready 0, 0, 13, ⟨0x25, 5⟩, ready_mayCall _ _ (by decide), by decide, rfl⟩
theorem witness_CallSendsTheFrame :
    ∃ (s : State) (len : Half) (pin : Byte), MayCall s len ∧ len.toNat ≤ 21845 ∧ s.resolve pin = some s.cfg.strip :=
  ⟨ready 3, 1, 13, ready_mayCall _ _ (by decide), by decide, by decide⟩
theorem witness_InterruptsAreOffExactlyInTheWindow :
    ∃ (s : State) (len : Half) (pin : Byte) (r : PinRef) (n : Nat), MayCall s len ∧ s.agenda = [] ∧ len.toNat ≤ 21845 ∧
      s.resolve pin = some r ∧ n ≤ 8 + s.cfg.latchTicks + 8 * (3 * len.toNat) * s.cfg.tbit ∧ 4 ≤ n ∧
      n = 6 + 8 * (3 * len.toNat) * s.cfg.tbit :=
  ⟨ready 3, 1, 13, ⟨0x25, 5⟩, 606, ready_mayCall _ _ (by decide), rfl, by decide, by decide, by decide, by decide,
    by decide⟩
theorem witness_CallRestoresInterruptEnable : ∃ (s : State) (len : Half), MayCall s len :=
  ⟨ready 0, 0, ready_mayCall _ _ (by decide)⟩
theorem witness_BytesAreFetchedOnSchedule :
    ∃ (s : State) (len : Half) (pin : Byte) (r : PinRef) (i : Nat) (b : Byte), MayCall s len ∧ s.agenda = [] ∧
      len.toNat ≤ 21845 ∧ s.resolve pin = some r ∧ i < 3 * len.toNat ∧ s.buf[i]? = some b ∧ i = 2 :=
  ⟨ready 3, 1, 13, ⟨0x25, 5⟩, 2, 0, ready_mayCall _ _ (by decide), rfl, by decide, by decide, by decide, by decide, rfl⟩
theorem witness_CallForgetsTheRegistersBefore :
    ∃ (s s' : State) (len : Half), MayCall s len ∧ s'.token ≠ s.token ∧ s'.err ≠ s.err ∧
      s' = { s with
        len := s'.len, pin := s'.pin, remain := s'.remain, ptr := s'.ptr, shreg := s'.shreg, bitcnt := s'.bitcnt
        curbit := s'.curbit, tcnt := s'.tcnt, ioaddr := s'.ioaddr, mask := s'.mask, portval := s'.portval
        token := s'.token, err := s'.err, ok := s'.ok } :=
  ⟨ready 3, { ready 3 with token := true, err := .pinResolution, remain := 7, mask := 3 }, 1,
    ready_mayCall _ _ (by decide), by decide, by decide, rfl⟩
theorem witness_RequestWhileBusyIsLost : ∃ s : State, s.fsm ≠ .idle ∧ s.ports.rst = false ∧ s.cfg.wf = true :=
  ⟨inSlot .latch 7, by decide⟩
theorem witness_CallShowsItsWaveformOnItsPin :
    ∃ (s : State) (len : Half) (pin : Byte) (r : PinRef), MayCall s len ∧ s.agenda = [] ∧ len.toNat ≤ 21845 ∧
      s.resolve pin = some r ∧ r ≠ s.cfg.strip :=
  ⟨ready 3, 1, 2, ⟨0x2B, 2⟩, ready_mayCall _ _ (by decide), rfl, by decide, by decide, by decide⟩
theorem witness_CallReadsEachIndexOnce :
    (∃ (s : State) (len : Half) (pin : Byte), MayCall s len ∧ s.agenda = [] ∧ len.toNat ≤ 21845 ∧
      (s.resolve pin).isSome = true ∧ len = 21845) ∧
    (∃ (s : State) (len : Half) (pin : Byte), MayCall s len ∧ s.agenda = [] ∧ len.toNat ≤ 21845 ∧ s.resolve pin = none) ∧
    ∃ (s : State) (len : Half) (pin : Byte), MayCall s len ∧ s.agenda = [] ∧ 21846 ≤ len.toNat ∧
      s.resolve pin = some ⟨0x2B, 2⟩ :=
  ⟨⟨ready 65535, 21845, 13, ready_mayCall _ _ (by decide), rfl, by decide, by decide, rfl⟩,
    ⟨ready 3, 1, 99, ready_mayCall _ _ (by decide), rfl, by decide, by decide⟩,
    ⟨ready 0, 21846, 2, ready_mayCall _ _ (by decide), rfl, by decide, by decide⟩⟩
theorem witness_FailedCallsShowTheirSchedule :
    ∃ (s u : State) (r : PinRef), MayCall s 21846 ∧ s.agenda = [] ∧ s.resolve 2 = some r ∧
      MayCall u 1 ∧ u.agenda = [] ∧ u.resolve 99 = none :=
  ⟨ready 0, ready 3, ⟨0x2B, 2⟩, ready_mayCall _ _ (by decide), rfl, by decide, ready_mayCall _ _ (by decide), rfl,
    by decide⟩
theorem witness_CallShowsItsResultOnce :
    ∃ s u : State, MayCall s 21846 ∧ s.agenda = [] ∧ MayCall u 1 ∧ u.agenda = [] ∧ u.resolve 99 = none ∧
      (u.resolve 2).isSome = true :=
  ⟨ready 0, ready 3, ready_mayCall _ _ (by decide), rfl, ready_mayCall _ _ (by decide), rfl, by decide, by decide⟩
theorem witness_SymbolsHaveTheSourcesDwells : ∃ c : Config, c.wf = true ∧ c.nominal = true := ⟨exampleCfg, by decide⟩
theorem witness_SymbolsShareOneBitPeriod : ∃ c : Config, c.wf = true := ⟨exampleCfg, by decide⟩
theorem witness_WireBitsAreInBufferOrder :
    [0xA5#8, 0x3C#8][15 / 8]? = some 0x3C#8 ∧ [Pixel.mk 1 2 3][0]? = some (Pixel.mk 1 2 3) := by decide
theorem witness_ReceiverReadsBackTheFrame :
    ∃ (c : Config) (k : Nat), c.wf = true ∧ c.t0h * c.tickNs = 350 ∧ c.t1h * c.tickNs = 900 ∧ c.tbit * c.tickNs = 1250 ∧
      c.tolNs ≤ 150 ∧ 50000 ≤ k * c.tickNs := ⟨Config.default, 1000, by decide⟩

end Sys2Proof.Tests
end

section
/-! SUPPORT. Durations of the wire's waveforms (00_scope.md R7, 30_encoding.md R94, R96): a symbol splits a bit period into
its HIGH and its LOW dwell, and a frame is eight bit periods a byte whatever its bits are. -/

namespace Sys2Proof.Machine

open Sys2Proof

@[simp] theorem symWave_count_true (c : Config) (b : Bool) : (symWave c b).count true = c.th b := by
  simp [symWave, List.count_replicate]

/-- A HIGH dwell within the bit period leaves the rest of it LOW; a longer one would stretch the symbol. -/
theorem symWave_length {c : Config} {b : Bool} (h : c.th b ≤ c.tbit) : (symWave c b).length = c.tbit := by
  have hsplit : c.th b + c.tl b = c.tbit := Nat.add_sub_cancel' h
  simpa [symWave] using hsplit

@[simp] theorem byteBits_length (b : Byte) : (byteBits b).length = 8 := rfl

/-- Pieces of one common length add up to that many times the number of pieces. -/
theorem flatMap_length_of_const {α β : Type} {f : α → List β} {n : Nat} (hf : ∀ a, (f a).length = n) (l : List α) :
    (l.flatMap f).length = l.length * n := by
  simp [List.length_flatMap, hf]

theorem byteWave_length {c : Config} (h : ∀ b, c.th b ≤ c.tbit) (b : Byte) : (byteWave c b).length = 8 * c.tbit := by
  rw [byteWave, flatMap_length_of_const fun bit => symWave_length (h bit), byteBits_length]

theorem frameWave_length {c : Config} (h : ∀ b, c.th b ≤ c.tbit) (bytes : List Byte) :
    (frameWave c bytes).length = 8 * bytes.length * c.tbit := by
  rw [frameWave, flatMap_length_of_const (byteWave_length h)]
  ring

/-- Settles O53: under a legal parameter set both HIGH dwells fit the bit period, so every symbol fills exactly one, and
R7's order and bound of the dwells are those of the HIGH samples. -/
theorem symbolsShareOneBitPeriod : Obligations.SymbolsShareOneBitPeriod := by
  intro c b bytes hw
  obtain ⟨-, hlt, -, hns, -⟩ := (wf_iff c).mp hw
  have hfit : ∀ b, c.th b ≤ c.tbit := fun b => by
    have := th_bounds hw b
    omega
  simp only [symWave_count_true]
  exact ⟨symWave_length (hfit b), trivial, hlt, hns, frameWave_length hfit bytes⟩

end Sys2Proof.Machine
end

section
/-! SUPPORT. The whole call: its three outcomes as runs from VALIDATE to DONE (46_orchestration.md R207 to R209), and
SETSTRIPE as the run to DONE and the return to IDLE. -/

namespace Sys2Proof.Machine

open Sys2Proof

/-! ## The ports are read in IDLE only -/

/-- The same machine with other values on its input ports. -/
def State.withPorts (s : State) (p : Ports) : State := { s with ports := p }

/-- IDLE alone reads the request ports (46_orchestration.md R201). -/
theorem runOp_withPorts {f : Fsm} (hf : f ≠ .idle) (s : State) (p : Ports) :
    runOp f (s.withPorts p) = Safety.onNext (fun t => t.withPorts p) (runOp f s) := by
  have hres : (s.withPorts p).resolve (s.withPorts p).pin = s.resolve s.pin := rfl
  cases f
  case idle => exact absurd rfl hf
  case pininit | resolve =>
    simp only [runOp, execPininit, execResolve, State.pinConfigOutLow, hres]
    cases s.resolve s.pin <;> rfl
  case validate | preload | decideContinue | release =>
    simp only [runOp, execValidate, execPreload, execDecide, execRelease, apply_ite (Safety.onNext _)]
    rfl
  all_goals rfl

/-- A busy block's tick is the same whether the host still holds `start` or has dropped it. -/
theorem clock_withdraw {s t : State} (hf : s.fsm ≠ .idle) (hr : s.ports.rst = false) (h : clock runOp s = .next t) :
    clock runOp s.withdraw = .next t.withdraw := by
  have hports : t.ports = s.ports := (clock_frame hr h).2.2.1
  have hop := runOp_withPorts hf s { s.ports with start := false }
  rw [clock_run hr] at h
  rw [clock_run (s := s.withdraw) hr, State.withdraw_fsm]
  change runOp s.fsm s.withdraw = _ at hop
  rw [hop]
  cases hs : runOp s.fsm s with
  | next u =>
    rw [hs] at h
    cases h
    unfold State.withdraw
    rw [hports]
    rfl
  | fault e => rw [hs] at h; cases h
  | refused e => rw [hs] at h; cases h

theorem run_withdraw {P : State → Prop} (hP : ∀ u, P u → u.fsm ≠ .idle) {n : Nat} {s t : State}
    (hr : s.ports.rst = false) (h : RunWhile P n s t) :
    RunWhile (fun u => u.fsm ≠ .idle) n s.withdraw t.withdraw := by
  induction n generalizing s with
  | zero => cases h; rfl
  | succ n ih =>
    obtain ⟨hp, u, hu, hrest⟩ := h
    have hru : u.ports.rst = false := by rw [(clock_frame hr hu).2.2.1, hr]
    exact ⟨hP s hp, _, clock_withdraw (hP s hp) hr hu, ih hru hrest⟩

/-- The ports at the end of a run. -/
theorem run_ports {P : State → Prop} {n : Nat} {s t : State} (hr : s.ports.rst = false) (h : RunWhile P n s t) :
    t.ports = s.ports := by
  induction n generalizing s with
  | zero => rw [← h]
  | succ n ih =>
    obtain ⟨-, u, hu, hrest⟩ := h
    have hup : u.ports = s.ports := (clock_frame hr hu).2.2.1
    rw [ih (by rw [hup, hr]) hrest, hup]

/-! ## From VALIDATE to DONE, outcome by outcome -/

/-- The block is in a call and has not reached DONE. -/
def Working (u : State) : Prop := u.fsm ≠ .idle ∧ u.fsm ≠ .done

theorem working_of_fsm {f : Fsm} {u : State} (hf : u.fsm = f) (hi : f ≠ .idle) (hd : f ≠ .done) : Working u := by
  subst hf
  exact ⟨hi, hd⟩

theorem EngineFsm.working {u : State} (h : EngineFsm u.fsm) : Working u := by
  rcases h with (h | h | h | h | h | h) | h <;> exact working_of_fsm h (by decide) (by decide)

/-- A length the validator refuses: VALIDATE, then DONE. -/
theorem tooMany_run {s : State} {len : Half} (pin : Byte) (hr : s.ports.rst = false) (hl : 21846 ≤ len.toNat) :
    RunWhile Working 1 (s.accepted len pin) (s.tooMany len pin) :=
  .one ⟨nofun, nofun⟩ (tooMany_tick pin hr hl)

/-- State 3 for a pin that does not resolve: ACQUIRE, no pin set up. -/
def State.notSetUp (s : State) (len : Half) (pin : Byte) : State :=
  { s.validated len pin with fsm := .acquire, wave := List.replicate 3 (s.level s.cfg.strip) ++ s.wave }

theorem notSetUp_tick {s : State} (len : Half) {pin : Byte} (hr : s.ports.rst = false) (hp : s.resolve pin = none) :
    clock runOp (s.validated len pin) = .next (s.notSetUp len pin) := by
  have hp' : (s.validated len pin).resolve (s.validated len pin).pin = none := hp
  rw [clock_run (s := s.validated len pin) hr]
  show sampled (execPininit (s.validated len pin)) = _
  unfold execPininit State.pinConfigOutLow
  rw [hp']
  rfl

/-- State 4: RESOLVE, the guard taken. -/
def State.notSetUpGuarded (s : State) (len : Half) (pin : Byte) : State :=
  { s.notSetUp len pin with
    fsm := .resolve, token := s.gie, gie := false, wave := List.replicate 4 (s.level s.cfg.strip) ++ s.wave }

theorem notSetUp_acquire_tick {s : State} (len : Half) (pin : Byte) (hr : s.ports.rst = false) :
    clock runOp (s.notSetUp len pin) = .next (s.notSetUpGuarded len pin) := by
  rw [clock_run (s := s.notSetUp len pin) hr]
  rfl

/-- State 5: RELEASE, PinResolutionError raised. -/
def State.unresolved (s : State) (len : Half) (pin : Byte) : State :=
  { s.notSetUpGuarded len pin with
    fsm := .release, err := .pinResolution, wave := List.replicate 5 (s.level s.cfg.strip) ++ s.wave }

theorem unresolved_tick {s : State} (len : Half) {pin : Byte} (hr : s.ports.rst = false) (hp : s.resolve pin = none) :
    clock runOp (s.notSetUpGuarded len pin) = .next (s.unresolved len pin) := by
  have hp' : (s.notSetUpGuarded len pin).resolve (s.notSetUpGuarded len pin).pin = none := hp
  rw [clock_run (s := s.notSetUpGuarded len pin) hr]
  show sampled (execResolve (s.notSetUpGuarded len pin)) = _
  unfold execResolve
  rw [hp']
  rfl

/-- State 6: DONE, the guard given back. -/
def State.pinFailed (s : State) (len : Half) (pin : Byte) : State :=
  { s.unresolved len pin with
    fsm := .done, gie := s.gie, wave := List.replicate 6 (s.level s.cfg.strip) ++ s.wave }

theorem unresolved_release_tick {s : State} (len : Half) (pin : Byte) (hr : s.ports.rst = false) :
    clock runOp (s.unresolved len pin) = .next (s.pinFailed len pin) := by
  rw [clock_run (s := s.unresolved len pin) hr]
  rfl

/-- A pin that does not resolve: five states from VALIDATE to RELEASE, then DONE. -/
theorem pinFailed_run {s : State} {len : Half} {pin : Byte} (hr : s.ports.rst = false) (hl : len.toNat ≤ 21845)
    (hp : s.resolve pin = none) : RunWhile Working 5 (s.accepted len pin) (s.pinFailed len pin) := by
  have h1 : RunWhile Working 1 (s.accepted len pin) (s.validated len pin) :=
    .one ⟨nofun, nofun⟩ (validate_tick pin hr hl)
  have h2 : RunWhile Working 1 (s.validated len pin) (s.notSetUp len pin) :=
    .one ⟨nofun, nofun⟩ (notSetUp_tick len hr hp)
  have h3 : RunWhile Working 1 (s.notSetUp len pin) (s.notSetUpGuarded len pin) :=
    .one ⟨nofun, nofun⟩ (notSetUp_acquire_tick len pin hr)
  have h4 : RunWhile Working 1 (s.notSetUpGuarded len pin) (s.unresolved len pin) :=
    .one ⟨nofun, nofun⟩ (unresolved_tick len hr hp)
  have h5 : RunWhile Working 1 (s.unresolved len pin) (s.pinFailed len pin) :=
    .one ⟨nofun, nofun⟩ (unresolved_release_tick len pin hr)
  exact (((h1.trans h2).trans h3).trans h4).trans h5

/-- A pin that resolves: four states from VALIDATE to RESOLVE, then PRELOAD. -/
theorem targeted_run {s : State} {len : Half} {pin : Byte} {r : PinRef} (hr : s.ports.rst = false)
    (hl : len.toNat ≤ 21845) (hp : s.resolve pin = some r) :
    RunWhile Working 4 (s.accepted len pin) (s.targeted len pin r) := by
  have h1 : RunWhile Working 1 (s.accepted len pin) (s.validated len pin) :=
    .one ⟨nofun, nofun⟩ (validate_tick pin hr hl)
  have h2 : RunWhile Working 1 (s.validated len pin) (s.setUp len pin r) :=
    .one ⟨nofun, nofun⟩ (setUp_tick len hr hp)
  have h3 : RunWhile Working 1 (s.setUp len pin r) (s.guarded len pin r) :=
    .one ⟨nofun, nofun⟩ (acquire_tick len pin r hr)
  have h4 : RunWhile Working 1 (s.guarded len pin r) (s.targeted len pin r) :=
    .one ⟨nofun, nofun⟩ (resolve_tick len hr hp)
  exact ((h1.trans h2).trans h3).trans h4

/-- RELEASE of a successful call: every byte of the request has been sent. -/
def State.sent (s : State) (len : Half) (pin : Byte) (r : PinRef) : State :=
  if len = 0 then s.emptyEnd len pin r
  else (s.preloaded len pin r (s.buf[0]?.getD 0)).engineEnd (3 * len.toNat - 1)

theorem State.sent_fsm (s : State) (len : Half) (pin : Byte) (r : PinRef) : (s.sent len pin r).fsm = .release := by
  unfold State.sent; split <;> rfl

theorem State.sent_err (s : State) (len : Half) (pin : Byte) (r : PinRef) : (s.sent len pin r).err = .noError := by
  unfold State.sent; split <;> rfl

theorem State.sent_ok (s : State) (len : Half) (pin : Byte) (r : PinRef) : (s.sent len pin r).ok = true := by
  unfold State.sent; split <;> rfl

theorem State.sent_token (s : State) (len : Half) (pin : Byte) (r : PinRef) : (s.sent len pin r).token = s.gie := by
  unfold State.sent; split <;> rfl

theorem State.sent_cfg (s : State) (len : Half) (pin : Byte) (r : PinRef) : (s.sent len pin r).cfg = s.cfg := by
  unfold State.sent; split <;> rfl

theorem State.sent_ports (s : State) (len : Half) (pin : Byte) (r : PinRef) :
    (s.sent len pin r).ports = (s.present len pin).ports := by
  unfold State.sent; split <;> rfl

/-- PRELOAD and the engine up to RELEASE: one step and `TBIT` steps a bit, with the guard held. -/
theorem sent_run {s : State} {len : Half} (pin : Byte) (r : PinRef) (hm : Safety.MayCall s len)
    (hl : len.toNat ≤ 21845) :
    RunWhile (fun u => (u.fsm = .preload ∨ EngineFsm u.fsm) ∧ u.gie = false) (1 + 8 * (3 * len.toNat) * s.cfg.tbit)
      (s.targeted len pin r) (s.sent len pin r) := by
  obtain ⟨hw, -, hr, hb⟩ := hm
  unfold State.sent
  by_cases h0 : len = 0
  · rw [if_pos h0]
    refine (RunWhile.one ⟨.inl rfl, rfl⟩ (preload_empty_tick pin r hr h0)).cast ?_
    simp [h0]
  · rw [if_neg h0]
    have hpos : len.toNat ≠ 0 := fun e => h0 (BitVec.eq_of_toNat_eq e)
    have hbyte : s.buf[0]? = some (s.buf[0]?.getD 0) := by
      rw [List.getElem?_eq_getElem (by have := hb hl; omega)]
      rfl
    have hpre := preload_tick pin r hr hl h0 hbyte
    exact (RunWhile.one ⟨.inl rfl, rfl⟩ hpre).trans
      ((send_run pin r hw hr hl h0 (hb hl)).mono fun _ h => ⟨.inr h.1, h.2⟩)

/-- DONE after the latch. -/
def State.latched (s : State) : State :=
  { s.latching with
    fsm := .done, tcnt := BitVec.ofNat 16 s.cfg.latchTicks
    wave := List.replicate s.cfg.latchTicks (s.level s.cfg.strip) ++ s.latching.wave }

/-- RELEASE without an error, then the latch, then DONE. -/
theorem latched_run {s : State} (hw : s.cfg.wf = true) (hr : s.ports.rst = false) (hf : s.fsm = .release)
    (he : s.err = .noError) : RunWhile Working (1 + s.cfg.latchTicks) s s.latched :=
  (RunWhile.one (working_of_fsm hf (by decide) (by decide)) (release_tick hr hf he)).trans
    ((latch_run (s := s.latching) hw hr rfl rfl).mono fun _ h => working_of_fsm h.1 (by decide) (by decide))

/-- A successful call from VALIDATE to DONE. -/
theorem success_run {s : State} {len : Half} {pin : Byte} {r : PinRef} (hm : Safety.MayCall s len)
    (hl : len.toNat ≤ 21845) (hp : s.resolve pin = some r) :
    RunWhile Working (6 + s.cfg.latchTicks + 8 * (3 * len.toNat) * s.cfg.tbit) (s.accepted len pin)
      (s.sent len pin r).latched := by
  have hw := hm.1
  have hr := hm.2.2.1
  have hsend : RunWhile Working _ (s.targeted len pin r) (s.sent len pin r) :=
    (sent_run pin r hm hl).mono fun u h => h.1.elim (working_of_fsm · (by decide) (by decide)) EngineFsm.working
  have hlatch := latched_run (s := s.sent len pin r) (by rw [State.sent_cfg, hw]) (by rw [State.sent_ports]; exact hr)
    (s.sent_fsm len pin r) (s.sent_err len pin r)
  rw [State.sent_cfg] at hlatch
  exact (((targeted_run hr hl hp).trans hsend).trans hlatch).cast (by omega)

/-! ## SETSTRIPE is the run to DONE and the return -/

theorem done_tick {s : State} (hr : s.ports.rst = false) (hf : s.fsm = .done) :
    clock runOp s = .next s.returnToIdle.sample := by
  rw [clock_run hr, hf]
  rfl

/-- A call whose run from VALIDATE reaches DONE within R206's bound returns the IDLE state after that DONE. -/
theorem exec_setstripe_of_run {s d : State} {len : Half} {pin : Byte} {n : Nat} (hm : Safety.MayCall s len)
    (h : RunWhile Working n (s.accepted len pin) d) (hd : d.fsm = .done) (hn : n + 2 ≤ callTicks s.cfg len) :
    exec (.setstripe len pin) s = .next d.returnToIdle.sample.withdraw := by
  have hf := hm.2.1
  have hr := hm.2.2.1
  have hdr : d.ports.rst = false := by
    rw [run_ports (s := s.accepted len pin) hr h]
    exact hr
  have hrun := (run_withdraw (s := s.accepted len pin) (fun _ hu => hu.1) hr h).trans
    (.one (by simp [hd]) (clock_withdraw (by simp [hd]) hdr (done_tick hdr hd)))
  show execSetstripe len pin s = _
  unfold execSetstripe
  rw [accept_tick pin hm]
  simp only [hf, if_true]
  exact untilIdle_of_run (fun _ hu => hu) hrun rfl (by omega)

end Sys2Proof.Machine
end

section
/-! SUPPORT. What a call leaves behind and what it shows (10_state.md R36, R42): SETSTRIPE in its three outcomes, its
independence of the registers before it, and the one state with `done = 1`. -/

namespace Sys2Proof.Machine

open Sys2Proof

theorem exec_setstripe_tooMany {s : State} {len : Half} (pin : Byte) (hm : Safety.MayCall s len)
    (hl : 21846 ≤ len.toNat) :
    exec (.setstripe len pin) s = .next (s.tooMany len pin).returnToIdle.sample.withdraw :=
  exec_setstripe_of_run hm (tooMany_run pin hm.2.2.1 hl) rfl (by unfold callTicks; omega)

theorem exec_setstripe_pinFailed {s : State} {len : Half} {pin : Byte} (hm : Safety.MayCall s len)
    (hl : len.toNat ≤ 21845) (hp : s.resolve pin = none) :
    exec (.setstripe len pin) s = .next (s.pinFailed len pin).returnToIdle.sample.withdraw :=
  exec_setstripe_of_run hm (pinFailed_run hm.2.2.1 hl hp) rfl (by unfold callTicks; omega)

theorem exec_setstripe_success {s : State} {len : Half} {pin : Byte} {r : PinRef} (hm : Safety.MayCall s len)
    (hl : len.toNat ≤ 21845) (hp : s.resolve pin = some r) :
    exec (.setstripe len pin) s = .next (s.sent len pin r).latched.returnToIdle.sample.withdraw :=
  exec_setstripe_of_run hm (success_run hm hl hp) rfl (by unfold callTicks wireBytes; rw [Nat.mul_comm 3]; omega)

/-- The same machine with the block's registers, FSM apart, taken from another state. -/
def State.withRegisters (s q : State) : State :=
  { s with
    len := q.len, pin := q.pin, remain := q.remain, ptr := q.ptr, shreg := q.shreg, bitcnt := q.bitcnt
    curbit := q.curbit, tcnt := q.tcnt, ioaddr := q.ioaddr, mask := q.mask, portval := q.portval
    token := q.token, err := q.err, ok := q.ok }

/-- What of a state the host and the environment see after a call. -/
def State.outcome (s : State) : Bool × Err × Memory × Bool × List PinRef × List Bool :=
  (s.ok, s.err, s.io, s.gie, s.outmode, s.wave)

theorem sent_withRegisters (s q : State) (len : Half) (pin : Byte) (r : PinRef) :
    ((s.withRegisters q).sent len pin r).latched.returnToIdle.sample.withdraw.outcome =
      (s.sent len pin r).latched.returnToIdle.sample.withdraw.outcome := by
  unfold State.sent
  split <;> rfl

/-- Settles O47: the state a call returns is written out for each of its outcomes, and none of the observed fields of it
mentions a register of the state before. -/
theorem callForgetsTheRegistersBefore : Obligations.CallForgetsTheRegistersBefore := by
  intro s s' len pin hm hs'
  have key : ∀ q : State, ∃ t t', exec (.setstripe len pin) s = .next t ∧
      exec (.setstripe len pin) (s.withRegisters q) = .next t' ∧ t.outcome = t'.outcome := by
    intro q
    have hm' : Safety.MayCall (s.withRegisters q) len := hm
    rcases Nat.lt_or_ge 21845 len.toNat with hl | hl
    · exact ⟨_, _, exec_setstripe_tooMany pin hm hl, exec_setstripe_tooMany pin hm' hl, rfl⟩
    cases hp : s.resolve pin with
    | none => exact ⟨_, _, exec_setstripe_pinFailed hm hl hp, exec_setstripe_pinFailed hm' hl hp, rfl⟩
    | some r =>
      exact ⟨_, _, exec_setstripe_success hm hl hp, exec_setstripe_success hm' hl hp,
        (sent_withRegisters s q len pin r).symm⟩
  obtain ⟨t, t', ht, ht', ho⟩ := key s'
  rw [← show s' = s.withRegisters s' from hs'] at ht'
  simp only [State.outcome, Prod.mk.injEq] at ho
  exact ⟨t, t', ht, ht', ho⟩

/-- A run that reaches DONE at its end shows one result, the one of that DONE. -/
theorem resultsAtDone_of_run {s d : State} {n : Nat} (hs : Safety.Undisturbed s)
    (h : RunWhile (fun u => u.fsm ≠ .done) n s d) (hd : d.fsm = .done) : resultsAtDone (n + 1) s = [d.result] := by
  unfold resultsAtDone
  rw [visited_run hs h 1, visited_one, List.filterMap_append,
    visited_filterMap_none hs h fun u hu => by simp [State.doneFlag, hu]]
  simp [State.doneFlag, hd]

/-- The same for a call, from the state with the request on the ports. -/
theorem resultsAtDone_of_call {s d : State} {len : Half} {pin : Byte} {n : Nat} (hm : Safety.MayCall s len)
    (ha : s.agenda = []) (h : RunWhile Working n (s.accepted len pin) d) (hd : d.fsm = .done) :
    resultsAtDone (n + 2) (s.present len pin) = [d.result] := by
  have haccept : RunWhile (fun u => u.fsm ≠ .done) 1 (s.present len pin) (s.accepted len pin) :=
    .one (by rw [State.present_fsm, hm.2.1]; decide) (accept_tick pin hm)
  have hrun := (haccept.trans (h.mono fun _ hu => hu.2)).cast (Nat.add_comm 1 n)
  exact resultsAtDone_of_run ⟨hm.1, ha, hm.2.2.1⟩ hrun hd

/-- Settles O52: each outcome's run meets DONE at its end only, and that state's result is the outcome's. -/
theorem callShowsItsResultOnce : Obligations.CallShowsItsResultOnce := by
  intro s len pin hm ha
  have hr := hm.2.2.1
  refine ⟨fun hl hp => ?_, fun hl hp => ?_, fun hl => ?_⟩
  · obtain ⟨r, hp⟩ := Option.isSome_iff_exists.mp hp
    have h := resultsAtDone_of_call hm ha (success_run hm hl hp) rfl
    have hres : (s.sent len pin r).latched.result = (true, 0#2) := by
      show ((s.sent len pin r).ok, errCode (s.sent len pin r).err) = _
      rw [State.sent_ok, State.sent_err]
      rfl
    have hn : Safety.successSteps s len = 6 + s.cfg.latchTicks + 8 * (3 * len.toNat) * s.cfg.tbit + 2 := by
      unfold Safety.successSteps
      omega
    rw [hn, h, hres]
  · exact resultsAtDone_of_call hm ha (pinFailed_run hr hl hp) rfl
  · exact resultsAtDone_of_call hm ha (tooMany_run pin hr hl) rfl

end Sys2Proof.Machine
end

section
/-! SUPPORT. Which fields an operation may write (10_state.md R22 to R39, 20_memory.md R68), said once, operation by
operation. -/

namespace Sys2Proof.Machine

open Sys2Proof

/-- The state `s` with the fields operation `f` may write taken from `t`. -/
def State.takeWrites (f : Fsm) (s t : State) : State :=
  match f with
  | .idle => { s with fsm := t.fsm, len := t.len, pin := t.pin, err := t.err, ok := t.ok }
  | .validate => { s with fsm := t.fsm, remain := t.remain, err := t.err }
  | .pininit => { s with fsm := t.fsm, io := t.io, outmode := t.outmode }
  | .acquire => { s with fsm := t.fsm, token := t.token, gie := t.gie }
  | .resolve => { s with fsm := t.fsm, ioaddr := t.ioaddr, mask := t.mask, err := t.err }
  | .preload =>
    { s with
      fsm := t.fsm, shreg := t.shreg, ptr := t.ptr, bitcnt := t.bitcnt, tcnt := t.tcnt, ok := t.ok, draws := t.draws }
  | .driveHigh | .driveLow => { s with fsm := t.fsm, io := t.io, portval := t.portval, tcnt := t.tcnt }
  | .extract => { s with fsm := t.fsm, curbit := t.curbit, shreg := t.shreg, tcnt := t.tcnt }
  | .branchZero | .branchOne | .fillLow | .latch => { s with fsm := t.fsm, tcnt := t.tcnt }
  | .decideContinue =>
    { s with
      fsm := t.fsm, remain := t.remain, shreg := t.shreg, ptr := t.ptr, bitcnt := t.bitcnt, tcnt := t.tcnt
      ok := t.ok, draws := t.draws }
  | .release => { s with fsm := t.fsm, gie := t.gie, tcnt := t.tcnt }
  | .done => { s with fsm := t.fsm }

/-- An operation writes no other field: each case is one path of the operation. -/
theorem runOp_writes {f : Fsm} {s t : State} (h : runOp f s = .next t) : t = s.takeWrites f t := by
  cases f
  case idle =>
    simp only [runOp, execIdle] at h
    split at h
    · split at h <;> cases h
      rfl
    · cases h; rfl
  case pininit =>
    simp only [runOp, execPininit, State.pinConfigOutLow] at h
    split at h <;> cases h <;> rfl
  case validate | resolve | preload | release =>
    simp only [runOp, execValidate, execResolve, execPreload, execRelease] at h
    split at h <;> cases h <;> rfl
  case decideContinue =>
    simp only [runOp, execDecide] at h
    split at h
    · cases h; rfl
    · split at h <;> cases h <;> rfl
  all_goals
    cases h
    rfl

/-- Settles O25: the state an operation leads to is the one before it with the fields it may write replaced, and every
clause says that a register is none of these. -/
theorem registersHaveTheirOnlyWriters : Obligations.RegistersHaveTheirOnlyWriters := by
  intro f s t h
  rw [exec_instr] at h
  rw [runOp_writes h]
  cases f <;> simp [State.takeWrites]

end Sys2Proof.Machine
end

section
/-! SUPPORT. The output ports (10_state.md R45) against the state the operation leads to. -/

namespace Sys2Proof.Machine

open Sys2Proof

theorem ioWe_iff (s : State) : s.outPorts.ioWe = true ↔ s.fsm = .driveHigh ∨ s.fsm = .driveLow := by
  simp [State.outPorts, State.ioWe]

theorem gieWe_iff (s : State) : s.outPorts.gieWe = true ↔ s.fsm = .acquire ∨ s.fsm = .release := by
  simp [State.outPorts, State.gieWe]

theorem cfgReq_iff (s : State) : s.outPorts.cfgReq = true ↔ s.fsm = .pininit := by
  simp [State.outPorts, State.cfgReq]

/-- `io_we`: the operation is a write of `io_wdata` at `io_addr`, whichever edge it is. -/
theorem runOp_io_of_ioWe {s t : State} (hwe : s.outPorts.ioWe = true) (h : runOp s.fsm s = .next t) :
    t.io = Memory.write s.io s.outPorts.ioAddr s.outPorts.ioWdata := by
  rcases (ioWe_iff s).mp hwe with hf | hf
  all_goals
    rw [hf] at h
    cases h
    simp [State.outPorts, State.ioAddrPort, State.ioWdata, hf]

/-- No operation but the two edges and the set-up stores to the I/O space (20_memory.md R68). -/
theorem runOp_io_frame {f : Fsm} {s t : State} (h : runOp f s = .next t) (hp : f ≠ .pininit) (hh : f ≠ .driveHigh)
    (hl : f ≠ .driveLow) : t.io = s.io := by
  rw [runOp_writes h]
  cases f
  case pininit | driveHigh | driveLow => contradiction
  all_goals rfl

/-- PININIT on a pin that does not resolve sets nothing up. -/
theorem runOp_pininit_unresolved {s t : State} (h : runOp .pininit s = .next t) (hp : s.resolve s.pin = none) :
    t.io = s.io ∧ t.outmode = s.outmode := by
  simp only [runOp, execPininit, State.pinConfigOutLow, hp] at h
  cases h
  exact ⟨rfl, rfl⟩

/-- PININIT on a pin that resolves puts it LOW, keeps every other bit of the I/O space, and adds it to OUTMODE. -/
theorem runOp_pininit_resolved {s t : State} {r : PinRef} (h : runOp .pininit s = .next t)
    (hp : s.resolve s.pin = some r) :
    Safety.LowAt r.bit (s.ioRead r.addr) (t.ioRead r.addr) ∧ (∀ a, a ≠ r.addr → t.ioRead a = s.ioRead a) ∧
      ∀ q, q ∈ t.outmode ↔ q ∈ s.outmode ∨ q = r := by
  simp only [runOp, execPininit, State.pinConfigOutLow, hp] at h
  cases h
  refine ⟨?_, fun a ha => State.ioRead_ioWrite_other s _ ha, PinSet.mem_insert s.outmode r⟩
  have hread : ∀ v, Memory.read (Memory.write s.io r.addr v) r.addr = v := Memory.read_write_same s.io r.addr
  simpa only [State.ioRead, State.ioWrite_io, hread] using lowAt_clearBits (s.ioRead r.addr) r.bit

/-- A buffer read gives the byte at the index, unless the index is beyond the buffer (20_memory.md R67). -/
theorem bufByte_spec (s : State) (i : Nat) : s.buf[i]? = some (s.bufByte i) ∨ s.buf.length ≤ i := by
  unfold State.bufByte
  cases h : s.buf[i]? with
  | some b => exact .inl rfl
  | none => exact .inr (List.getElem?_eq_none_iff.mp h)

/-- SHREG after any operation but EXTRACT: as it was, or the byte read at `buf_idx`. -/
theorem runOp_shreg {s t : State} (h : runOp s.fsm s = .next t) (hf : s.fsm ≠ .extract) :
    t.shreg = s.shreg ∨ t.shreg = s.bufByte s.outPorts.bufIdx.toNat := by
  by_cases hfetch : s.fsm = .preload ∨ s.fsm = .decideContinue
  · rcases hfetch with hp | hd
    · have hidx : s.outPorts.bufIdx = 0 := by simp [State.outPorts, State.bufIdx, hp]
      rw [hp] at h
      simp only [runOp, execPreload] at h
      split at h <;> cases h
      · exact .inl rfl
      · exact .inr (by rw [hidx]; rfl)
    · have hidx : s.outPorts.bufIdx = s.ptr := by simp [State.outPorts, State.bufIdx, hd]
      rw [hd] at h
      simp only [runOp, execDecide] at h
      split at h
      · cases h; exact .inl rfl
      · split at h <;> cases h
        · exact .inl rfl
        · exact .inr (by rw [hidx])
  · obtain ⟨hp, hd⟩ := not_or.mp hfetch
    obtain ⟨-, -, -, -, hsh, -⟩ := registersHaveTheirOnlyWriters s.fsm s t (by rwa [exec_instr])
    exact .inl (hsh hp hd hf)

/-- `gie_we`: ACQUIRE and RELEASE store `gie_wdata`. -/
theorem runOp_gie_of_gieWe {s t : State} (hwe : s.outPorts.gieWe = true) (h : runOp s.fsm s = .next t) :
    t.gie = s.outPorts.gieWdata := by
  rcases (gieWe_iff s).mp hwe with hf | hf
  · rw [hf] at h
    cases h
    simp [State.outPorts, State.gieWdata, hf]
  · have hdata : s.outPorts.gieWdata = s.token := by simp [State.outPorts, State.gieWdata, hf]
    rw [hf] at h
    simp only [runOp, execRelease] at h
    split at h <;> cases h <;> exact hdata.symm

/-- Settles O29: a strobe names the operations that store, and each clause is what they store, or the frame of all
others. -/
theorem outputPortsShowTheStores : Obligations.OutputPortsShowTheStores := by
  intro s t hexec
  obtain ⟨-, -, -, -, -, -, -, -, -, hgie, -, -, hout⟩ := registersHaveTheirOnlyWriters s.fsm s t hexec
  have h : runOp s.fsm s = .next t := by rwa [exec_instr] at hexec
  have hpininit : s.outPorts.cfgReq = true → runOp .pininit s = .next t := fun hc => (cfgReq_iff s).mp hc ▸ h
  refine ⟨fun hwe => ?_, fun hwe hc => ?_, (runOp_gie_of_gieWe · h), fun hwe => ?_, fun hc => ?_,
    fun hc hp => runOp_pininit_unresolved (hpininit hc) hp, fun hc r hp => runOp_pininit_resolved (hpininit hc) hp,
    fun hne => ?_⟩
  · simp only [State.ioRead, runOp_io_of_ioWe hwe h]
    exact ⟨Memory.read_write_same _ _ _, fun a ha => Memory.read_write_other _ _ ha⟩
  · have hedge := mt (ioWe_iff s).mpr (by simp [hwe])
    have hset := mt (cfgReq_iff s).mpr (by simp [hc])
    exact runOp_io_frame h hset (fun e => hedge (.inl e)) (fun e => hedge (.inr e))
  · have hguard := mt (gieWe_iff s).mpr (by simp [hwe])
    exact hgie (fun e => hguard (.inl e)) (fun e => hguard (.inr e))
  · exact hout (mt (cfgReq_iff s).mpr (by simp [hc]))
  · by_cases hf : s.fsm = .extract
    · exact .inl hf
    · have hbyte := (runOp_shreg h hf).resolve_left (Ne.symm hne)
      rw [hbyte]
      exact .inr (bufByte_spec s _)

end Sys2Proof.Machine
end

section
/-! SUPPORT. Reset (10_state.md R44): the state after it, and the tick with `rst = 1`. -/

namespace Sys2Proof.Machine

open Sys2Proof

/-- A tick with `rst = 1` clears FSM, ERR and OK and leaves the environment, the parameters, the ports and the agenda
alone, whatever the block was doing. -/
theorem clock_reset_frame {s : State} (hr : s.ports.rst = true) :
    ∃ t, clock runOp s = .next t ∧ (t.fsm = .idle ∧ t.err = .noError ∧ t.ok = false) ∧
      t.io = s.io ∧ t.gie = s.gie ∧ t.outmode = s.outmode ∧ t.buf = s.buf ∧ t.cfg = s.cfg ∧ t.ports = s.ports ∧
      t.agenda = s.agenda :=
  ⟨_, clock_reset hr, ⟨rfl, rfl, rfl⟩, rfl, rfl, rfl, rfl, rfl, rfl, rfl⟩

theorem busy_of_idle {s : State} (h : s.fsm = .idle) : s.busy = false ∧ s.doneFlag = false := by
  simp [State.busy, State.doneFlag, h]

/-- With an empty agenda a step is a tick with the ports held (log 14). -/
theorem step_held {s : State} (hw : s.cfg.wf = true) (ha : s.agenda = []) : step s = clock runOp s := by
  unfold step
  rw [if_pos hw, ha]
  exact tick_eq_clock s

/-- A tick entry: its inputs arrive, then the block ticks (log 13). -/
theorem step_tick_entry {s : State} {i : TickInput} {rest : List Event} (hw : s.cfg.wf = true)
    (ha : s.agenda = .tick i :: rest) : step s = clock runOp ({ s with agenda := rest }.applyInput i) := by
  unfold step
  rw [if_pos hw, ha]
  exact tick_eq_clock _

/-- Settles O1: the step is the reset tick. -/
theorem resetClearsFsmAndResultOnly : Obligations.ResetClearsFsmAndResultOnly := by
  refine ⟨by decide, fun s hw ha hr => ?_⟩
  obtain ⟨t, ht, ⟨hf, he, ho⟩, hio, hgie, hout, hbuf, hcfg, hports, -⟩ := clock_reset_frame hr
  have hstep : step s = .next t := (step_held hw ha).trans ht
  obtain ⟨hbusy, hdone⟩ := busy_of_idle hf
  exact ⟨t, hstep, hf, he, ho, hbusy, hdone, fun a => congrArg (Memory.read · a) hio, hgie, hout, hbuf, hcfg, hports⟩

/-- The inputs of a tick do not touch the parameters or the rest of the agenda. -/
theorem applyInput_frame (s : State) (i : TickInput) :
    (s.applyInput i).cfg = s.cfg ∧ (s.applyInput i).agenda = s.agenda := by
  obtain ⟨io, gie, outmode, buf, h⟩ := applyMoves_frame i.moves s
  unfold State.applyInput
  rw [h]
  exact ⟨rfl, rfl⟩

/-- Settles O2: the entry's inputs arrive, then the tick is the reset tick. -/
theorem resetInputResetsTheBlock : Obligations.ResetInputResetsTheBlock := by
  intro s input rest hw ha hr u hu
  obtain ⟨hucfg, huagenda⟩ := applyInput_frame { s with agenda := rest } input
  rw [← hu] at hucfg huagenda
  have huports : u.ports = input.ports := by rw [hu]; rfl
  obtain ⟨t, ht, ⟨hf, he, ho⟩, hio, hgie, hout, hbuf, hcfg, hports, hagenda⟩ :=
    clock_reset_frame (s := u) (by rw [huports, hr])
  have hstep : step s = .next t := by
    rw [step_tick_entry hw ha, ← hu, ht]
  obtain ⟨hbusy, hdone⟩ := busy_of_idle hf
  exact ⟨t, hstep, hf, he, ho, hbusy, hdone, fun a => congrArg (Memory.read · a) hio, hgie, hout, hbuf,
    hcfg.trans hucfg, hports.trans huports, hagenda.trans huagenda⟩

/-- An I/O space nobody has written is canonical. -/
theorem Memory.nil_wf (c : Config) : Memory.wf c [] := ⟨.nil, fun _ h => nomatch h⟩

/-- Zero fits every width. -/
theorem zero_fits (c : Config) : c.addrFits 0 = true ∧ c.wordFits 0 = true := by
  simp [Config.addrFits, Config.wordFits]

/-- Settles O35: at reset nothing is written and nothing is in output mode, and the three registers hold 0. -/
theorem resetIsCanonical : Obligations.ResetIsCanonical where
  io := Memory.nil_wf _
  outmode := .nil
  pins := fun _ h => nomatch h
  ioaddr := (zero_fits _).1
  mask := (zero_fits _).2
  portval := (zero_fits _).2

end Sys2Proof.Machine
end

section
/-! SUPPORT. What every tick keeps, a call keeps: the tick's two outcomes, the host's wait and SETSTRIPE, said once
(46_orchestration.md R204, R212). -/

namespace Sys2Proof.Machine

open Sys2Proof

/-- What a tick leads to: the reset state or the operation's next state, with the chain's sample. -/
theorem clock_next {s t : State} (h : clock runOp s = .next t) :
    (s.ports.rst = true ∧ t = s.resetBlock.sample) ∨
      ∃ u, s.ports.rst = false ∧ runOp s.fsm s = .next u ∧ t = u.sample := by
  cases hr : s.ports.rst with
  | true =>
    rw [clock_reset hr] at h
    cases h
    exact .inl ⟨rfl, rfl⟩
  | false =>
    rw [clock_run hr] at h
    cases hop : runOp s.fsm s with
    | next u =>
      rw [hop] at h
      cases h
      exact .inr ⟨u, rfl, rfl, rfl⟩
    | fault f => rw [hop] at h; cases h
    | refused r => rw [hop] at h; cases h

/-- What every tick keeps holds when the host's wait is over. -/
theorem untilIdle_keeps {P : State → Prop} (htick : ∀ u v, P u → clock runOp u = .next v → P v) {fuel : Nat}
    {s t : State} (hs : P s) (h : untilIdle fuel s = .next t) : P t := by
  induction fuel generalizing s with
  | zero =>
    unfold untilIdle at h
    split at h <;> cases h
    exact hs
  | succ fuel ih =>
    unfold untilIdle at h
    split at h
    · cases h
      exact hs
    · split at h
      · next u hu => exact ih (htick s u hs hu) h
      · cases h
      · cases h

/-- What every tick keeps, and the host's `start` does not touch, holds after a call. -/
theorem execSetstripe_keeps {P : State → Prop} (htick : ∀ u v, P u → clock runOp u = .next v → P v)
    (hdrop : ∀ u, P u → P u.withdraw) {len : Half} {pin : Byte} {s t : State} (hs : P (s.present len pin))
    (h : execSetstripe len pin s = .next t) : P t := by
  unfold execSetstripe at h
  split at h
  · next u hu =>
    have hu' : P u.withdraw := hdrop u (htick _ u hs hu)
    split at h
    · exact untilIdle_keeps htick hu' h
    · cases h
      exact hu'
  · cases h
  · cases h

end Sys2Proof.Machine
end

section
/-! SUPPORT. The canonical forms of the I/O space and the pin-direction set (20_memory.md R60, R64, 10_state.md R30 to
R39): each operation, reset, each move of the environment and each wire symbol keeps them, so a tick, a call and a step
do. -/

namespace Sys2Proof.Machine

open Sys2Proof

/-! ## Update by update -/

theorem sample_canonical {s : State} (hs : Safety.Canonical s) : Safety.Canonical s.sample :=
  { hs with }

theorem hold_canonical {s : State} (hs : Safety.Canonical s) (k : Nat) : Safety.Canonical (s.hold k) :=
  { hs with }

/-- A store of a value that fits, at an address that exists. -/
theorem ioWrite_canonical {s : State} (hs : Safety.Canonical s) {a v : Nat} (ha : s.cfg.addrFits a = true)
    (hv : s.cfg.wordFits v = true) : Safety.Canonical (s.ioWrite a v) :=
  { hs with io := Memory.write_wf hs.io ha hv }

theorem ioRead_fits {s : State} (hs : Safety.Canonical s) (a : Nat) : s.cfg.wordFits (s.ioRead a) = true :=
  Memory.read_fits hs.io a

/-- A pin that exists put in output mode. -/
theorem insertPin_canonical {s : State} (hs : Safety.Canonical s) {p : PinRef} (hp : s.cfg.pinFits p = true) :
    Safety.Canonical { s with outmode := PinSet.insert s.outmode p } :=
  { hs with
    outmode := PinSet.insert_wf hs.outmode p
    pins := fun q hq => ((PinSet.mem_insert _ _ _).mp hq).elim (hs.pins q) (· ▸ hp) }

theorem erasePin_canonical {s : State} (hs : Safety.Canonical s) (p : PinRef) :
    Safety.Canonical { s with outmode := PinSet.erase s.outmode p } :=
  { hs with
    outmode := PinSet.erase_wf hs.outmode p
    pins := fun q hq => hs.pins q (List.mem_filter.mp hq).1 }

/-- The address of a pin that exists is an I/O address. -/
theorem addrFits_of_pinFits {c : Config} {r : PinRef} (h : c.pinFits r = true) : c.addrFits r.addr = true :=
  (Bool.and_eq_true_iff.mp h).1

/-- The set-up service stores to a pin of the resolver's table, and every such pin exists. -/
theorem pinConfigOutLow_canonical {s : State} (hw : s.cfg.wf = true) (hs : Safety.Canonical s) (p : Byte) :
    Safety.Canonical (s.pinConfigOutLow p) := by
  unfold State.pinConfigOutLow
  split
  · next r hr =>
    have hfit : s.cfg.pinFits r = true := resolve_fits hw hr
    have hlow := clearBits_fits (ioRead_fits hs r.addr) (bitMask_fits hfit)
    exact insertPin_canonical (ioWrite_canonical hs (addrFits_of_pinFits hfit) hlow) hfit
  · exact hs

theorem driveLine_canonical {s : State} (hw : s.cfg.wf = true) (hs : Safety.Canonical s) (high : Bool) :
    Safety.Canonical (s.driveLine high) := by
  obtain ⟨-, -, -, -, -, -, -, -, hstrip⟩ := (wf_iff _).mp hw
  have ha := addrFits_of_pinFits hstrip
  have hm := bitMask_fits hstrip
  have hv := ioRead_fits hs s.cfg.strip.addr
  cases high
  · exact ioWrite_canonical hs ha (clearBits_fits hv hm)
  · exact ioWrite_canonical hs ha (or_fits hv hm)

theorem pulse_canonical {s : State} (hw : s.cfg.wf = true) (hs : Safety.Canonical s) (th : Nat) :
    Safety.Canonical (s.pulse th) :=
  hold_canonical (driveLine_canonical (by exact hw) (hold_canonical (driveLine_canonical hw hs true) th) false) _

/-- The free values of a reset are drawn at the widths of their registers. -/
theorem resetBlock_canonical {s : State} (hs : Safety.Canonical s) : Safety.Canonical s.resetBlock :=
  { hs with
    ioaddr := decide_eq_true (Config.freeValue s.cfg.ioaddrW 8 s.draws).isLt
    mask := decide_eq_true (Config.freeValue s.cfg.portW 9 s.draws).isLt
    portval := decide_eq_true (Config.freeValue s.cfg.portW 10 s.draws).isLt }

/-- A move that names no register or no pin, or a value too wide, does nothing (log 13). -/
theorem applyMove_canonical {s : State} (hs : Safety.Canonical s) (m : EnvMove) : Safety.Canonical (s.applyMove m) := by
  cases m with
  | ioWrite a v =>
    simp only [State.applyMove]
    split
    · next hfit =>
      obtain ⟨ha, hv⟩ := Bool.and_eq_true_iff.mp hfit
      exact ioWrite_canonical hs ha hv
    · exact hs
  | gieWrite v => exact { hs with }
  | bufWrite i v => exact { hs with }
  | bufBind bytes => exact { hs with }
  | setDirection p output =>
    simp only [State.applyMove]
    split
    · next hfit =>
      cases output
      · exact erasePin_canonical hs p
      · exact insertPin_canonical hs hfit
    · exact hs

theorem applyMoves_canonical (moves : List EnvMove) :
    ∀ {s : State}, Safety.Canonical s → Safety.Canonical (s.applyMoves moves) := by
  induction moves with
  | nil => exact id
  | cons m rest ih => exact fun hs => ih (applyMove_canonical hs m)

/-! ## Operations, ticks, calls and steps -/

/-- The set-up, the target's latching and the two edges write the fields the form is about; no other operation does. -/
theorem runOp_canonical {f : Fsm} {s t : State} (hw : s.cfg.wf = true) (hs : Safety.Canonical s)
    (h : runOp f s = .next t) : Safety.Canonical t := by
  cases f
  case pininit =>
    cases h
    exact { pinConfigOutLow_canonical hw hs s.pin with }
  case resolve =>
    simp only [runOp, execResolve] at h
    split at h <;> cases h
    · next r hr =>
      have hfit : s.cfg.pinFits r = true := resolve_fits hw hr
      exact { hs with ioaddr := addrFits_of_pinFits hfit, mask := bitMask_fits hfit }
    · exact { hs with }
  case driveHigh =>
    cases h
    have hv := or_fits (ioRead_fits hs s.ioaddr) hs.mask
    exact { ioWrite_canonical hs hs.ioaddr hv with portval := hv }
  case driveLow =>
    cases h
    have hv := xor_fits hs.portval hs.mask
    exact { ioWrite_canonical hs hs.ioaddr hv with portval := hv }
  all_goals
    rw [runOp_writes h]
    exact { hs with }

/-- Canonical, under a legal parameter set: what ticks keep. -/
def Sound (s : State) : Prop := s.cfg.wf = true ∧ Safety.Canonical s

theorem clock_sound {s t : State} (hs : Sound s) (h : clock runOp s = .next t) : Sound t := by
  obtain ⟨hw, hc⟩ := hs
  rcases clock_next h with ⟨-, rfl⟩ | ⟨u, -, hop, rfl⟩
  · exact ⟨hw, sample_canonical (resetBlock_canonical hc)⟩
  · have hcfg : u.cfg = s.cfg := (runOp_frame hop).1
    exact ⟨hcfg ▸ hw, sample_canonical (runOp_canonical hw hc hop)⟩

theorem execSetstripe_sound {len : Half} {pin : Byte} {s t : State} (hs : Sound s)
    (h : execSetstripe len pin s = .next t) : Sound t :=
  execSetstripe_keeps (P := Sound) (fun _ _ => clock_sound) (fun _ ⟨hw, hc⟩ => ⟨hw, { hc with }⟩)
    ⟨hs.1, { hs.2 with }⟩ h

theorem exec_symbol_canonical (symbol : Symbol) {s t : State} (hs : Sound s) (h : exec symbol.instr s = .next t) :
    Safety.Canonical t := by
  obtain ⟨hw, hc⟩ := hs
  cases symbol <;> cases h
  case zero | one => exact pulse_canonical hw hc _
  case latch => exact hold_canonical (driveLine_canonical hw hc false) _

theorem applyInput_sound {s : State} (hs : Sound s) (input : TickInput) : Sound (s.applyInput input) :=
  ⟨by rw [(applyInput_frame s input).1, hs.1], { applyMoves_canonical input.moves hs.2 with }⟩

theorem bindBuffer_sound {s : State} (hs : Sound s) (pixels : List Byte) : Sound (s.bindBuffer pixels) :=
  ⟨hs.1, { hs.2 with }⟩

/-- Settles O34: a step is a tick, a tick with its inputs, a call or a wire symbol, and each keeps the form. -/
theorem stepKeepsTheCanonicalForm : Obligations.StepKeepsTheCanonicalForm := by
  intro s t hs h
  cases hw : s.cfg.wf with
  | false => simp [step, hw] at h
  | true =>
    have hrest : ∀ rest, Sound { s with agenda := rest } := fun _ => ⟨hw, { hs with }⟩
    rcases step_cases hw with ⟨-, hstep⟩ | ⟨input, rest, -, hstep⟩ | ⟨len, pin, pixels, rest, -, hstep⟩ |
      ⟨symbol, rest, -, hstep⟩ <;> rw [hstep] at h
    · exact (clock_sound ⟨hw, hs⟩ h).2
    · exact (clock_sound (applyInput_sound (hrest rest) input) h).2
    · exact (execSetstripe_sound (bindBuffer_sound (hrest rest) pixels) h).2
    · exact exec_symbol_canonical symbol (hrest rest) h

end Sys2Proof.Machine
end

section
/-! SUPPORT. The schedule of the buffer's reads (20_memory.md R65, C7): byte 0 is fetched in PRELOAD, every later byte in
the last DECIDE of the byte before it, `8 * TBIT` steps after that byte's own fetch. -/

namespace Sys2Proof.Machine

open Sys2Proof

/-- The last tick of a run leads from where one tick fewer ends to where the run ends. -/
theorem RunWhile.last_tick {P Q : State → Prop} {n : Nat} {s t u : State} (h : RunWhile P (n + 1) s t)
    (h' : RunWhile Q n s u) : clock runOp u = .next t := by
  obtain ⟨v, hv, hrest⟩ := h.cut (Nat.le_succ n)
  obtain rfl := hv.end_unique h'
  obtain ⟨-, w, hw, rfl⟩ := hrest.cast (Nat.add_sub_cancel_left n 1)
  exact hw

/-- `u` is the first state of the engine with byte `i` of the `n` bytes of a call from `s`, just fetched. -/
structure Fetched (s : State) (n i : Nat) (u : State) : Prop where
  undisturbed : Safety.Undisturbed u
  cfg : u.cfg = s.cfg
  buf : u.buf = s.buf
  fsm : u.fsm = .driveHigh
  bitcnt : u.bitcnt = 8
  shreg : s.buf[i]? = some u.shreg
  ptr : u.ptr.toNat = i + 1
  remain : u.remain.toNat + i = n

/-- The byte goes out, and nothing is read before its last DECIDE. -/
theorem Fetched.byte_run {s u : State} {n i : Nat} (h : Fetched s n i u) :
    RunWhile (Sending u.gie) (8 * s.cfg.tbit - 1) u (u.bitsEnd 8) := by
  obtain ⟨hw, -, hr⟩ := h.undisturbed
  rw [← h.cfg]
  exact Machine.byte_run hw hr h.fsm h.bitcnt

/-- The last DECIDE of a byte that is not the last fetches the next one. -/
theorem Fetched.next {s u : State} {n i : Nat} (h : Fetched s n i u) (hi : i + 1 < n) (hn : n ≤ 65535)
    (hlen : n ≤ s.buf.length) : ∃ v, clock runOp (u.bitsEnd 8) = .next v ∧ Fetched s n (i + 1) v := by
  obtain ⟨hw, -, hr⟩ := h.undisturbed
  have htbit := (th_bounds hw true).2
  have hrem := h.remain
  have hbyte : s.buf[i + 1]? = some s.buf[i + 1] := List.getElem?_eq_getElem (by omega)
  have hrun := nextByte_run hw hr h.fsm h.bitcnt (by omega) (by rw [h.buf, h.ptr, hbyte])
  have htick := (hrun.cast (n := 8 * s.cfg.tbit - 1 + 1) (by rw [← h.cfg]; omega)).last_tick h.byte_run
  refine ⟨_, htick, h.undisturbed, h.cfg, h.buf, h.fsm, rfl, hbyte, ?_, ?_⟩
  · show (u.ptr + 1).toNat = i + 1 + 1
    rw [half_succ (by rw [h.ptr]; omega), h.ptr]
  · show (u.remain - 1).toNat + (i + 1) = n
    have h1 : (1 : Half).toNat = 1 := rfl
    rw [BitVec.toNat_sub_of_le (by rw [BitVec.le_def]; omega), h1]
    omega

/-- PRELOAD fetches byte 0. -/
theorem fetched_preloaded {s : State} {len : Half} (pin : Byte) (r : PinRef) {b : Byte} (hm : Safety.MayCall s len)
    (ha : s.agenda = []) (hl : len.toNat ≤ 21845) (hb : s.buf[0]? = some b) :
    Fetched s (3 * len.toNat) 0 (s.preloaded len pin r b) where
  undisturbed := ⟨hm.1, ha, hm.2.2.1⟩
  cfg := rfl
  buf := rfl
  fsm := rfl
  bitcnt := rfl
  shreg := hb
  ptr := rfl
  remain := wireBytes_toNat hl

/-- The request on the ports, then PRELOAD five steps later. -/
theorem preload_run {s : State} {len : Half} {pin : Byte} {r : PinRef} (hm : Safety.MayCall s len)
    (hl : len.toNat ≤ 21845) (hp : s.resolve pin = some r) :
    RunWhile (fun _ => True) 5 (s.present len pin) (s.targeted len pin r) :=
  (RunWhile.one trivial (accept_tick pin hm)).trans ((targeted_run hm.2.2.1 hl hp).mono fun _ _ => trivial)

/-- The step in which byte `i` is fetched. -/
theorem fetch_run {s : State} {len : Half} {pin : Byte} {r : PinRef} (hm : Safety.MayCall s len) (ha : s.agenda = [])
    (hl : len.toNat ≤ 21845) (hp : s.resolve pin = some r) (i : Nat) (hi : i < 3 * len.toNat) :
    ∃ u v, RunWhile (fun _ => True) (5 + 8 * i * s.cfg.tbit) (s.present len pin) u ∧
      u.fsm = (if i = 0 then .preload else .decideContinue) ∧ u.bufIdx.toNat = i ∧ clock runOp u = .next v ∧
      Fetched s (3 * len.toNat) i v := by
  have hlen := hm.2.2.2 hl
  induction i with
  | zero =>
    have hbyte : s.buf[0]? = some s.buf[0] := List.getElem?_eq_getElem (by omega)
    have h0 : len ≠ 0 := by rintro rfl; exact absurd hi (by decide)
    exact ⟨_, _, (preload_run hm hl hp).cast (by omega), rfl, rfl, preload_tick pin r hm.2.2.1 hl h0 hbyte,
      fetched_preloaded pin r hm ha hl hbyte⟩
  | succ i ih =>
    obtain ⟨u, v, hrun, -, -, htick, hv⟩ := ih (by omega)
    obtain ⟨w, hw, hfetched⟩ := hv.next hi (by omega) hlen
    have htbit := (th_bounds hm.1 true).2
    refine ⟨_, w, ((hrun.trans (.one trivial htick)).trans (hv.byte_run.mono fun _ _ => trivial)).cast ?_, rfl, hv.ptr,
      hw, hfetched⟩
    rw [Nat.mul_succ, Nat.add_mul]
    omega

/-- Settles O46: byte `i` is fetched where `fetch_run` says. -/
theorem bytesAreFetchedOnSchedule : Obligations.BytesAreFetchedOnSchedule := by
  intro s len pin r i b hm ha hl hp hi hb
  obtain ⟨u, v, hrun, hfsm, hidx, htick, hv⟩ := fetch_run hm ha hl hp i hi
  have hs : Safety.Undisturbed (s.present len pin) := ⟨hm.1, ha, hm.2.2.1⟩
  have hstep : step u = .next v := (step_undisturbed (undisturbed_run hs hrun)).trans htick
  have hshreg : v.shreg = b := Option.some.inj (hv.shreg.symm.trans hb)
  exact ⟨u, v, steps_of_run hs hrun, hfsm, hidx, hstep, hv.fsm, hshreg, hv.ptr⟩

end Sys2Proof.Machine
end

section
/-! SUPPORT. The buffer indices a call reads (00_scope.md R9, 20_memory.md R65), part by part of its run: none before
PRELOAD and after RELEASE, each byte's own index in between. -/

namespace Sys2Proof.Machine

open Sys2Proof

/-! ## What a run reads -/

/-- Only PRELOAD and DECIDE read the buffer. -/
theorem readIndex_eq_none {u : State} (hp : u.fsm ≠ .preload) (hd : u.fsm ≠ .decideContinue) : u.readIndex = none := by
  simp [State.readIndex, hp, hd]

theorem readIndices_one (s : State) : readIndices 1 s = s.readIndex.toList := by
  rw [readIndices, visited_one]
  cases h : s.readIndex <;> simp [h]

theorem readIndices_run {P : State → Prop} {n : Nat} {s t : State} (hs : Safety.Undisturbed s) (h : RunWhile P n s t)
    (m : Nat) : readIndices (n + m) s = readIndices n s ++ readIndices m t := by
  unfold readIndices
  rw [visited_run hs h, List.filterMap_append]

/-- A run through states that read nothing, and what is read from its end on. -/
theorem readIndices_silent {n : Nat} {s t : State} (hs : Safety.Undisturbed s)
    (h : RunWhile (fun u => u.readIndex = none) n s t) (m : Nat) : readIndices (n + m) s = readIndices m t := by
  rw [readIndices_run hs h, readIndices, visited_filterMap_none hs h fun _ hu => hu, List.nil_append]

/-- States none of which is PRELOAD or DECIDE read nothing. -/
theorem readIndices_eq_nil {n : Nat} {s : State} {l : List Fsm} (h : (visited n s).map State.fsm = l)
    (hp : .preload ∉ l) (hd : .decideContinue ∉ l) : readIndices n s = [] := by
  subst h
  refine List.filterMap_eq_nil_iff.mpr fun u hu => readIndex_eq_none ?_ ?_
  · exact fun e => hp (List.mem_map.mpr ⟨u, hu, e⟩)
  · exact fun e => hd (List.mem_map.mpr ⟨u, hu, e⟩)

/-! ## The two failures -/

/-- The states of a call of too many pixels up to its DONE. -/
theorem visited_tooMany {s : State} {len : Half} (pin : Byte) (hm : Safety.MayCall s len) (ha : s.agenda = [])
    (hl : 21846 ≤ len.toNat) :
    visited 3 (s.present len pin) = [s.present len pin, s.accepted len pin, s.tooMany len pin] := by
  have hs : Safety.Undisturbed s := ⟨hm.1, ha, hm.2.2.1⟩
  rw [visited_succ (by exact hs) (accept_tick pin hm), visited_succ (by exact hs) (tooMany_tick pin hm.2.2.1 hl),
    visited_one]

/-- The states of a call on a pin that does not resolve up to its DONE. -/
theorem visited_pinFailed {s : State} {len : Half} {pin : Byte} (hm : Safety.MayCall s len) (ha : s.agenda = [])
    (hl : len.toNat ≤ 21845) (hp : s.resolve pin = none) :
    visited 7 (s.present len pin) =
      [s.present len pin, s.accepted len pin, s.validated len pin, s.notSetUp len pin, s.notSetUpGuarded len pin,
        s.unresolved len pin, s.pinFailed len pin] := by
  have hs : Safety.Undisturbed s := ⟨hm.1, ha, hm.2.2.1⟩
  have hr := hm.2.2.1
  rw [visited_succ (by exact hs) (accept_tick pin hm), visited_succ (by exact hs) (validate_tick pin hr hl),
    visited_succ (by exact hs) (notSetUp_tick len hr hp), visited_succ (by exact hs) (notSetUp_acquire_tick len pin hr),
    visited_succ (by exact hs) (unresolved_tick len hr hp),
    visited_succ (by exact hs) (unresolved_release_tick len pin hr), visited_one]

theorem readIndices_tooMany {s : State} {len : Half} (pin : Byte) (hm : Safety.MayCall s len) (ha : s.agenda = [])
    (hl : 21846 ≤ len.toNat) : readIndices 3 (s.present len pin) = [] := by
  have hfsm : (visited 3 (s.present len pin)).map State.fsm = [s.fsm, .validate, .done] := by
    rw [visited_tooMany pin hm ha hl]
    rfl
  rw [hm.2.1] at hfsm
  exact readIndices_eq_nil hfsm (by decide) (by decide)

theorem readIndices_pinFailed {s : State} {len : Half} {pin : Byte} (hm : Safety.MayCall s len) (ha : s.agenda = [])
    (hl : len.toNat ≤ 21845) (hp : s.resolve pin = none) : readIndices 7 (s.present len pin) = [] := by
  have hfsm : (visited 7 (s.present len pin)).map State.fsm =
      [s.fsm, .validate, .pininit, .acquire, .resolve, .release, .done] := by
    rw [visited_pinFailed hm ha hl hp]
    rfl
  rw [hm.2.1] at hfsm
  exact readIndices_eq_nil hfsm (by decide) (by decide)

/-! ## A successful call -/

/-- The five states before PRELOAD read nothing. -/
theorem preload_run_silent {s : State} {len : Half} {pin : Byte} {r : PinRef} (hm : Safety.MayCall s len)
    (hl : len.toNat ≤ 21845) (hp : s.resolve pin = some r) :
    RunWhile (fun u => u.readIndex = none) 5 (s.present len pin) (s.targeted len pin r) := by
  have hr := hm.2.2.1
  have hidle : s.fsm = .idle := hm.2.1
  exact ⟨readIndex_eq_none (by simp [hidle]) (by simp [hidle]), _, accept_tick pin hm,
    readIndex_eq_none nofun nofun, _, validate_tick pin hr hl,
    readIndex_eq_none nofun nofun, _, setUp_tick len hr hp,
    readIndex_eq_none nofun nofun, _, acquire_tick len pin r hr,
    readIndex_eq_none nofun nofun, _, resolve_tick len hr hp, rfl⟩

/-- RELEASE, the latch and DONE read nothing. -/
theorem readIndices_release {s : State} (hs : Safety.Undisturbed s) (hf : s.fsm = .release) (he : s.err = .noError) :
    readIndices (1 + s.cfg.latchTicks + 1) s = [] := by
  have hr := hs.2.2
  have hrelease : RunWhile (fun u => u.readIndex = none) 1 s s.latching :=
    .one (readIndex_eq_none (by simp [hf]) (by simp [hf])) (release_tick hr hf he)
  have hlatch : RunWhile (fun u => u.readIndex = none) s.cfg.latchTicks s.latching s.latched :=
    (latch_run (s := s.latching) hs.1 hr rfl rfl).mono fun u hu =>
      readIndex_eq_none (by simp [hu.1]) (by simp [hu.1])
  rw [readIndices_silent hs (hrelease.trans hlatch), readIndices_one,
    readIndex_eq_none (u := s.latched) nofun nofun]
  rfl

/-- A byte's `8 * TBIT` steps read the next byte's index, in its last DECIDE, unless the byte is the last. -/
theorem Fetched.byte_reads {s u : State} {n i : Nat} (h : Fetched s n i u) :
    readIndices (8 * s.cfg.tbit) u = if u.remain = 1 then [] else [u.ptr] := by
  obtain ⟨hw, -, hr⟩ := h.undisturbed
  have htbit := (th_bounds hw true).2
  have hsilent := h.byte_run.mono fun _ hu => hu.2.2
  have hlast : (u.bitsEnd 8).readIndex = if u.remain = 1 then none else some u.ptr := by
    simp [State.readIndex, State.bitsEnd, hr]
  rw [show 8 * s.cfg.tbit = 8 * s.cfg.tbit - 1 + 1 by rw [← h.cfg]; omega, readIndices_silent h.undisturbed hsilent,
    readIndices_one, hlast]
  split <;> rfl

/-- From the fetch of byte `i` on, the engine reads the indices of the `k` bytes that follow. -/
theorem Fetched.reads {s : State} {n : Nat} (hn : n ≤ 65535) (hlen : n ≤ s.buf.length) (k : Nat) :
    ∀ {u : State} {i : Nat}, Fetched s n i u → i + 1 + k = n →
      readIndices (8 * (k + 1) * s.cfg.tbit) u = (List.range' (i + 1) k).map (BitVec.ofNat 16) := by
  induction k with
  | zero =>
    intro u i h hk
    have hrem : u.remain = 1 := BitVec.eq_of_toNat_eq (by have := h.remain; show u.remain.toNat = 1; omega)
    rw [show 8 * (0 + 1) * s.cfg.tbit = 8 * s.cfg.tbit by omega, h.byte_reads, if_pos hrem]
    rfl
  | succ k ih =>
    intro u i h hk
    obtain ⟨v, htick, hv⟩ := h.next (by omega) hn hlen
    have htbit := (th_bounds h.undisturbed.1 true).2
    have hrun : RunWhile (fun _ => True) (8 * s.cfg.tbit) u v :=
      ((h.byte_run.mono fun _ _ => trivial).trans (.one trivial htick)).cast (by rw [← h.cfg]; omega)
    have hrem : u.remain ≠ 1 := by
      intro e
      have hleft := h.remain
      rw [e, show (1 : Half).toNat = 1 from rfl] at hleft
      omega
    have hptr : u.ptr = BitVec.ofNat 16 (i + 1) := by rw [← h.ptr, BitVec.ofNat_toNat, BitVec.setWidth_eq]
    rw [show 8 * (k + 1 + 1) * s.cfg.tbit = 8 * s.cfg.tbit + 8 * (k + 1) * s.cfg.tbit by ring,
      readIndices_run h.undisturbed hrun, h.byte_reads, if_neg hrem, hptr, ih hv (by omega), List.range'_succ]
    rfl

/-- PRELOAD reads index 0, unless there is no byte to send. -/
theorem targeted_reads {s : State} (len : Half) (pin : Byte) (r : PinRef) (hr : s.ports.rst = false) :
    readIndices 1 (s.targeted len pin r) = if (s.targeted len pin r).remain = 0 then [] else [0] := by
  have hread : (s.targeted len pin r).readIndex = if (s.targeted len pin r).remain = 0 then none else some 0 := by
    have hrst : (s.targeted len pin r).ports.rst = false := hr
    have hfsm : (s.targeted len pin r).fsm = .preload := rfl
    simp [State.readIndex, hrst, hfsm]
  rw [readIndices_one, hread]
  split <;> rfl

/-- PRELOAD and the engine read the indices of all the bytes, in order. -/
theorem readIndices_targeted {s : State} {len : Half} (pin : Byte) (r : PinRef) (hm : Safety.MayCall s len)
    (ha : s.agenda = []) (hl : len.toNat ≤ 21845) :
    readIndices (1 + 8 * (3 * len.toNat) * s.cfg.tbit) (s.targeted len pin r) =
      (List.range (3 * len.toNat)).map (BitVec.ofNat 16) := by
  have hr := hm.2.2.1
  have hlen := hm.2.2.2 hl
  by_cases h0 : len = 0
  · subst h0
    simpa using (targeted_reads 0 pin r hr).trans (if_pos rfl)
  · have hpos : len.toNat ≠ 0 := fun e => h0 (BitVec.eq_of_toNat_eq e)
    have hbyte : s.buf[0]? = some s.buf[0] := List.getElem?_eq_getElem (by omega)
    have hne : (s.targeted len pin r).remain ≠ 0 := by
      intro e
      have hzero : 3 * len.toNat = 0 := (wireBytes_toNat hl).symm.trans (congrArg BitVec.toNat e)
      omega
    have hs : Safety.Undisturbed (s.targeted len pin r) := ⟨hm.1, ha, hr⟩
    have htick := RunWhile.one (P := fun _ => True) trivial (preload_tick pin r hr hl h0 hbyte)
    have hreads := (fetched_preloaded pin r hm ha hl hbyte).reads (by omega) hlen (3 * len.toNat - 1) (by omega)
    rw [show 3 * len.toNat - 1 + 1 = 3 * len.toNat by omega] at hreads
    have hrange : List.range (3 * len.toNat) = 0 :: List.range' (0 + 1) (3 * len.toNat - 1) := by
      rw [List.range_eq_range', ← List.range'_succ]
      congr 1
      omega
    rw [readIndices_run hs htick, targeted_reads len pin r hr, if_neg hne, hreads, hrange]
    rfl

/-- Settles O50: the two failures never reach PRELOAD; a success reads nothing up to PRELOAD, then every index, then
nothing from RELEASE on. -/
theorem callReadsEachIndexOnce : Obligations.CallReadsEachIndexOnce := by
  intro s len pin hm ha
  refine ⟨fun hl hp => ?_, fun hl hp => readIndices_pinFailed hm ha hl hp, fun hl => readIndices_tooMany pin hm ha hl⟩
  obtain ⟨r, hp⟩ := Option.isSome_iff_exists.mp hp
  have hs : Safety.Undisturbed (s.present len pin) := ⟨hm.1, ha, hm.2.2.1⟩
  have hpreload := preload_run_silent hm hl hp
  have htargeted := undisturbed_run hs hpreload
  have hsend := sent_run pin r hm hl
  have hend := readIndices_release (undisturbed_run htargeted hsend) (s.sent_fsm len pin r) (s.sent_err len pin r)
  rw [State.sent_cfg] at hend
  have hn : Safety.successSteps s len = 5 + (1 + 8 * (3 * len.toNat) * s.cfg.tbit + (1 + s.cfg.latchTicks + 1)) := by
    unfold Safety.successSteps
    omega
  rw [hn, readIndices_silent hs hpreload, readIndices_run htargeted hsend, readIndices_targeted pin r hm ha hl, hend,
    List.append_nil]

end Sys2Proof.Machine
end

section
/-! SUPPORT. What the instructions do to the memory spaces (20_memory.md R66 to R69): who stores to the I/O space and
where, that the buffer and the parameters are only read, and what the two edges of a bit store. -/

namespace Sys2Proof.Machine

open Sys2Proof

/-! ## The I/O space -/

/-- DRIVE_HIGH stores the port value it reads, with the mask set (44_bit_engine.md R155). -/
theorem exec_driveHigh_stores {s t : State} (h : exec .driveHigh s = .next t) :
    t.ioRead s.ioaddr = s.ioRead s.ioaddr ||| s.mask ∧ t.portval = s.ioRead s.ioaddr ||| s.mask ∧
      t.mask = s.mask ∧ t.ioaddr = s.ioaddr ∧ ∀ a, a ≠ s.ioaddr → t.ioRead a = s.ioRead a := by
  cases h
  exact ⟨State.ioRead_ioWrite_same s _ _, rfl, rfl, rfl, fun a ha => State.ioRead_ioWrite_other s _ ha⟩

/-- DRIVE_LOW stores its own saved port value, with the mask flipped, and reads nothing (44_bit_engine.md R162). -/
theorem exec_driveLow_stores {s t : State} (h : exec .driveLow s = .next t) :
    t.ioRead s.ioaddr = s.portval ^^^ s.mask ∧ ∀ a, a ≠ s.ioaddr → t.ioRead a = s.ioRead a := by
  cases h
  exact ⟨State.ioRead_ioWrite_same s _ _, fun a ha => State.ioRead_ioWrite_other s _ ha⟩

/-- PININIT stores to the register of the pin it resolves, if it resolves one. -/
theorem runOp_pininit_frame {s t : State} (h : runOp .pininit s = .next t) {a : Nat}
    (ha : ∀ r, s.resolve s.pin = some r → a ≠ r.addr) : t.ioRead a = s.ioRead a := by
  cases hp : s.resolve s.pin with
  | none => exact congrArg (Memory.read · a) (runOp_pininit_unresolved h hp).1
  | some r => exact (runOp_pininit_resolved h hp).2.1 a (ha r hp)

/-- Settles O26: the three operations that store each leave all registers but their own. -/
theorem onlyTheEdgesAndTheSetUpStoreToIO : Obligations.OnlyTheEdgesAndTheSetUpStoreToIO := by
  intro f s t h
  refine ⟨fun hp hh hl => runOp_io_frame (by rwa [← exec_instr]) hp hh hl, ?_, ?_⟩
  · rintro (rfl | rfl)
    · obtain ⟨-, -, -, -, hframe⟩ := exec_driveHigh_stores h
      exact hframe
    · obtain ⟨-, hframe⟩ := exec_driveLow_stores h
      exact hframe
  · rintro rfl a ha
    exact runOp_pininit_frame h ha

/-- Settles O28: the falling edge flips the mask in what the rising edge read and saved with the mask set, and reads no
port; a rising edge reads the port of its own state. -/
theorem fallingEdgeWritesBackTheRisingRead : Obligations.FallingEdgeWritesBackTheRisingRead := by
  intro s u w t hrise hport hmask haddr hfall
  obtain ⟨-, hport', hmask', haddr', -⟩ := exec_driveHigh_stores hrise
  obtain ⟨hstore, -⟩ := exec_driveLow_stores hfall
  rw [haddr, haddr', hport, hport', hmask, hmask', or_xor_eq_clearBits] at hstore
  refine ⟨fun i => ?_, fun x y hx hy => ?_⟩
  · rw [hstore, clearBits_testBit]
  · rw [← hx]
    exact (exec_driveHigh_stores hy).1

/-! ## The buffer, the parameters and the agenda -/

/-- The rows of the table: the host's call, the wire symbols and the operations of the block. -/
theorem instr_cases : ∀ i : Instr, (∃ len pin, i = .setstripe len pin) ∨ (∃ symbol : Symbol, i = symbol.instr) ∨
    ∃ f : Fsm, i = f.instr
  | .setstripe len pin => .inl ⟨len, pin, rfl⟩
  | .sym0 => .inr (.inl ⟨.zero, rfl⟩)
  | .sym1 => .inr (.inl ⟨.one, rfl⟩)
  | .latchsym => .inr (.inl ⟨.latch, rfl⟩)
  | .idle => .inr (.inr ⟨.idle, rfl⟩)
  | .validate => .inr (.inr ⟨.validate, rfl⟩)
  | .pininit => .inr (.inr ⟨.pininit, rfl⟩)
  | .acquire => .inr (.inr ⟨.acquire, rfl⟩)
  | .resolve => .inr (.inr ⟨.resolve, rfl⟩)
  | .preload => .inr (.inr ⟨.preload, rfl⟩)
  | .driveHigh => .inr (.inr ⟨.driveHigh, rfl⟩)
  | .extract => .inr (.inr ⟨.extract, rfl⟩)
  | .branchZero => .inr (.inr ⟨.branchZero, rfl⟩)
  | .branchOne => .inr (.inr ⟨.branchOne, rfl⟩)
  | .driveLow => .inr (.inr ⟨.driveLow, rfl⟩)
  | .fillLow => .inr (.inr ⟨.fillLow, rfl⟩)
  | .decideContinue => .inr (.inr ⟨.decideContinue, rfl⟩)
  | .release => .inr (.inr ⟨.release, rfl⟩)
  | .latch => .inr (.inr ⟨.latch, rfl⟩)
  | .done => .inr (.inr ⟨.done, rfl⟩)

/-- `t` reads the same buffer, the same parameters and the same agenda as `s`. -/
def SameInputs (s t : State) : Prop := t.buf = s.buf ∧ t.cfg = s.cfg ∧ t.agenda = s.agenda

theorem clock_sameInputs {s u v : State} (hu : SameInputs s u) (h : clock runOp u = .next v) : SameInputs s v := by
  rcases clock_next h with ⟨-, rfl⟩ | ⟨w, -, hop, rfl⟩
  · exact hu
  · obtain ⟨hcfg, hbuf, -, hagenda, -⟩ := runOp_frame hop
    exact ⟨hbuf.trans hu.1, hcfg.trans hu.2.1, hagenda.trans hu.2.2⟩

theorem exec_symbol_sameInputs (symbol : Symbol) {s t : State} (h : exec symbol.instr s = .next t) :
    SameInputs s t := by
  cases symbol <;> cases h
  case zero | one => exact ⟨State.pulse_buf s _, State.pulse_cfg s _, State.pulse_agenda s _⟩
  case latch => exact ⟨rfl, rfl, rfl⟩

/-- Settles O27: a call is made of ticks, and no tick, no symbol and no operation writes them. -/
theorem nothingWritesTheBufferOrThePinTable : Obligations.NothingWritesTheBufferOrThePinTable := by
  intro i s t h
  rcases instr_cases i with ⟨len, pin, rfl⟩ | ⟨symbol, rfl⟩ | ⟨f, rfl⟩
  · exact execSetstripe_keeps (P := SameInputs s) (fun _ _ => clock_sameInputs) (fun _ hu => hu) ⟨rfl, rfl, rfl⟩ h
  · exact exec_symbol_sameInputs symbol h
  · rw [exec_instr] at h
    obtain ⟨hcfg, hbuf, -, hagenda, -⟩ := runOp_frame h
    exact ⟨hbuf, hcfg, hagenda⟩

/-- Settles O9: the buffer does not serve the request, so IDLE refuses it. -/
theorem shortBufferIsRefused : Obligations.ShortBufferIsRefused := by
  intro s hstart hlen hshort
  have hserves : ¬ s.bufferServes s.ports.reqLen = true := by
    rw [bufferServes_iff]
    omega
  show execIdle s = _
  rw [execIdle, if_pos hstart, if_neg hserves]

end Sys2Proof.Machine
end

section
/-! SUPPORT. The order of bytes and bits in a frame (20_memory.md R61, R62): a list made of pieces of one length is
indexed by piece and place. -/

namespace Sys2Proof.Machine

open Sys2Proof

/-- Place `i` of piece `k`. -/
theorem getElem?_flatMap_of_const {α β : Type} {f : α → List β} {n : Nat} (hf : ∀ a, (f a).length = n) {i : Nat}
    (hi : i < n) (l : List α) : ∀ {k : Nat} {a : α}, l[k]? = some a → (l.flatMap f)[n * k + i]? = (f a)[i]? := by
  induction l with
  | nil => intro k a h; simp at h
  | cons x xs ih =>
    intro k a h
    rw [List.flatMap_cons]
    cases k with
    | zero =>
      obtain rfl : x = a := by simpa using h
      rw [Nat.mul_zero, Nat.zero_add, List.getElem?_append_left (by rw [hf]; exact hi)]
    | succ k =>
      rw [List.getElem?_append_right (by rw [hf, Nat.mul_succ]; omega), hf,
        show n * (k + 1) + i - n = n * k + i by rw [Nat.mul_succ]; omega]
      exact ih (by simpa using h)

/-- A byte's bits, most significant first (30_encoding.md R93). -/
theorem byteBits_getElem? (b : Byte) {i : Nat} (hi : i < 8) : (byteBits b)[i]? = some (b.getLsbD (7 - i)) := by
  interval_cases i <;> rfl

theorem frameBits_getElem? {bytes : List Byte} {j : Nat} {b : Byte} (h : bytes[j / 8]? = some b) :
    (frameBits bytes)[j]? = some (b.getLsbD (7 - j % 8)) := by
  have hplace : j % 8 < 8 := Nat.mod_lt j (by decide)
  have hpiece := getElem?_flatMap_of_const byteBits_length hplace bytes h
  rw [Nat.div_add_mod, byteBits_getElem? b hplace] at hpiece
  exact hpiece

/-- The `i`-th byte of pixel `k`. -/
theorem pixelBytes_getElem? {pixels : List Pixel} {k : Nat} {p : Pixel} (h : pixels[k]? = some p) {i : Nat}
    (hi : i < 3) : (pixelBytes pixels)[3 * k + i]? = [p.green, p.red, p.blue][i]? :=
  getElem?_flatMap_of_const (f := fun p : Pixel => [p.green, p.red, p.blue]) (fun _ => rfl) hi pixels h

/-- Settles O55: a byte is eight bits of the frame, a pixel three bytes of the buffer. -/
theorem wireBitsAreInBufferOrder : Obligations.WireBitsAreInBufferOrder :=
  ⟨fun _ _ _ h => frameBits_getElem? h, fun _ _ _ h =>
    ⟨pixelBytes_getElem? h (i := 0) (by decide), pixelBytes_getElem? h (i := 1) (by decide),
      pixelBytes_getElem? h (i := 2) (by decide)⟩⟩

end Sys2Proof.Machine
end

section
/-! SUPPORT. Codes and instructions (30_encoding.md R90, R94, R95, R98): the state codes both ways, the request word's two
halves, and what tells the wire symbols apart. -/

namespace Sys2Proof.Machine

open Sys2Proof

/-! ## State codes -/

@[simp] theorem ofCode_code (f : Fsm) : Fsm.ofCode f.code = f := by
  cases f <;> rfl

/-- All sixteen codes are in use. -/
@[simp] theorem code_ofCode : ∀ k : BitVec 4, (Fsm.ofCode k).code = k := by
  decide

theorem encode_instr (c : Config) (f : Fsm) : encode c f.instr = f.codeWord := by
  cases f <;> rfl

/-- An operation is encoded as its state's code, which names one state only. -/
theorem instr_injective {f g : Fsm} (h : f.instr = g.instr) : f = g := by
  have hword : f.codeWord = g.codeWord := by
    rw [← encode_instr Config.default f, h, encode_instr]
  have hbits : f.code.toNat = g.code.toNat := congrArg Code.bits hword
  rw [← ofCode_code f, BitVec.eq_of_toNat_eq hbits, ofCode_code]

/-- Settles O7: the state code is a bijection, and operations are told apart by it. -/
theorem stateCodesAreTotal : Obligations.StateCodesAreTotal :=
  ⟨ofCode_code, code_ofCode, fun _ _ => instr_injective⟩

/-- Settles O4: the decoder evaluated on each code. -/
theorem writtenOutCodesDecode : Obligations.WrittenOutCodesDecode := by
  unfold Obligations.WrittenOutCodesDecode
  decide

theorem decode_codeWord (c : Config) (f : Fsm) : decode c f.codeWord = some f.instr := by
  have hbits : f.code.toNat < 2 ^ 4 := f.code.isLt
  simp only [decode, Fsm.codeWord, hbits, and_self, if_true, BitVec.ofNat_toNat, BitVec.setWidth_eq, ofCode_code]

/-! ## Request words -/

/-- The word's low half is the length and its high byte the pin. -/
theorem ofNat_requestWord (len : Half) (pin : Byte) :
    BitVec.ofNat 16 (requestWord len pin) = len ∧ BitVec.ofNat 8 (requestWord len pin / 2 ^ 16) = pin := by
  have hlen := len.isLt
  have hpin := pin.isLt
  unfold requestWord
  constructor <;> apply BitVec.eq_of_toNat_eq <;> rw [BitVec.toNat_ofNat] <;> omega

/-- Every 24-bit word is the request of its halves. -/
theorem requestWord_ofNat {n : Nat} (h : n < 2 ^ 24) :
    requestWord (BitVec.ofNat 16 n) (BitVec.ofNat 8 (n / 2 ^ 16)) = n := by
  unfold requestWord
  rw [BitVec.toNat_ofNat, BitVec.toNat_ofNat]
  omega

theorem decode_requestWord (c : Config) (len : Half) (pin : Byte) :
    decode c ⟨.request, 24, requestWord len pin⟩ = some (.setstripe len pin) := by
  have hlen := len.isLt
  have hpin := pin.isLt
  have hbits : requestWord len pin < 2 ^ 24 := by
    unfold requestWord
    omega
  obtain ⟨hl, hp⟩ := ofNat_requestWord len pin
  simp only [decode, hbits, and_self, if_true, hl, hp]

/-! ## Wire symbols -/

/-- A longer HIGH dwell makes a larger tick string. -/
theorem symbolBits_lt_symbolBits {th th' tbit : Nat} (h : th < th') (h' : th' ≤ tbit) :
    symbolBits th tbit < symbolBits th' tbit := by
  have hsplit : ∀ k, k ≤ tbit → symbolBits k tbit = 2 ^ tbit - 2 ^ (tbit - k) := fun k hk => by
    rw [symbolBits, Nat.sub_mul, Nat.one_mul, ← Nat.pow_add, Nat.add_sub_cancel' hk]
  have hlow : 2 ^ (tbit - th') < 2 ^ (tbit - th) := Nat.pow_lt_pow_right (by decide) (by omega)
  have hfit : 2 ^ (tbit - th) ≤ 2 ^ tbit := Nat.pow_le_pow_right (by decide) (Nat.sub_le _ _)
  rw [hsplit th (by omega), hsplit th' h']
  omega

/-- The three wire codes differ: the latch has no HIGH tick, a 1 has more than a 0. -/
theorem decode_symbol {c : Config} (hw : c.wf = true) (symbol : Symbol) :
    decode c (encode c symbol.instr) = some symbol.instr := by
  obtain ⟨h2, hlt, hfit, -⟩ := (wf_iff c).mp hw
  have hzero : symbolBits c.t0h c.tbit ≠ 0 := by
    have := symbolBits_lt_symbolBits (th := 0) (th' := c.t0h) (tbit := c.tbit) (by omega) (by omega)
    omega
  have hone : symbolBits c.t0h c.tbit < symbolBits c.t1h c.tbit := symbolBits_lt_symbolBits hlt (by omega)
  have hone_ne : symbolBits c.t1h c.tbit ≠ 0 := by omega
  cases symbol
  case latch => simp [Symbol.instr, encode, decode]
  case zero => simp [Symbol.instr, encode, decode, hzero]
  case one => simp [Symbol.instr, encode, decode, hone_ne, hone.ne']

/-! ## Both round trips -/

/-- Settles O5: a request by its halves, a symbol by its dwells, an operation by its state code. -/
theorem decodeOfEncodeIsTheInstruction : Obligations.DecodeOfEncodeIsTheInstruction := by
  intro c i hw _
  rcases instr_cases i with ⟨len, pin, rfl⟩ | ⟨symbol, rfl⟩ | ⟨f, rfl⟩
  · exact decode_requestWord c len pin
  · exact decode_symbol hw symbol
  · rw [encode_instr, decode_codeWord]

/-- A decoded code is rebuilt from its row, format by format. -/
theorem encode_of_decode {c : Config} {w : Code} {i : Instr} (h : decode c w = some i) : encode c i = w := by
  obtain ⟨format, width, bits⟩ := w
  cases format with
  | request =>
    simp only [decode] at h
    split at h <;> cases h
    next hcond =>
      obtain ⟨rfl, hbits⟩ := hcond
      exact congrArg (Code.mk .request 24) (requestWord_ofNat hbits)
  | fsm =>
    simp only [decode] at h
    split at h <;> cases h
    next hcond =>
      obtain ⟨rfl, hbits⟩ := hcond
      rw [encode_instr, Fsm.codeWord, code_ofCode, BitVec.toNat_ofNat, Nat.mod_eq_of_lt hbits]
  | wire =>
    simp only [decode] at h
    split at h
    · next hcond => cases h; obtain ⟨rfl, rfl⟩ := hcond; rfl
    · split at h
      · next hcond => cases h; obtain ⟨rfl, rfl⟩ := hcond; rfl
      · split at h <;> cases h
        next hcond => obtain ⟨rfl, rfl⟩ := hcond; rfl

/-- Settles O6: each format's rows are read back to the code they came from. -/
theorem onlyEncodingsDecode : Obligations.OnlyEncodingsDecode :=
  fun _ _ _ _ h => encode_of_decode h

end Sys2Proof.Machine
end

section
/-! SUPPORT. The reference receiver (30_encoding.md R101) on the frame function's waveform: a dwell between edges is one
run, and a symbol's HIGH run is read as its bit. -/

namespace Sys2Proof.Machine

open Sys2Proof

/-! ## Runs of a waveform -/

/-- The first run has the level of the first sample. -/
theorem levelRuns_head_level (l : List Bool) : (levelRuns l).head?.map Prod.fst = l.head? := by
  cases l with
  | nil => rfl
  | cons b rest =>
    unfold levelRuns
    split
    · rfl
    · split
      · next h => simp [h]
      · rfl

/-- A dwell that ends in an edge, or with the waveform, is one run. -/
theorem levelRuns_dwell {b : Bool} {rest : List Bool} (hedge : rest.head? ≠ some b) (n : Nat) :
    levelRuns (List.replicate (n + 1) b ++ rest) = (b, n + 1) :: levelRuns rest := by
  induction n with
  | zero =>
    have hlevel := levelRuns_head_level rest
    show levelRuns (b :: rest) = _
    rw [levelRuns]
    cases hruns : levelRuns rest with
    | nil => rfl
    | cons run more =>
      have hne : b ≠ run.1 := by
        rintro rfl
        exact hedge (by rw [← hlevel, hruns]; rfl)
      exact if_neg hne
  | succ n ih =>
    rw [List.replicate_succ, List.cons_append, levelRuns, ih]
    exact if_pos rfl

/-- The receiver takes a waveform dwell by dwell. -/
theorem receive_dwell (c : Config) {b : Bool} {n : Nat} {rest : List Bool} (hn : 0 < n) (hedge : rest.head? ≠ some b) :
    receive c (List.replicate n b ++ rest) = receiveRun c (b, n) ++ receive c rest := by
  obtain ⟨m, rfl⟩ : ∃ m, n = m + 1 := ⟨n - 1, by omega⟩
  rw [receive, levelRuns_dwell hedge, List.flatMap_cons]
  rfl

/-! ## Nominal timing -/

/-- The dwells of a parameter set are nominal for the reference receiver: the premise of R101's reading. -/
structure NominalDwells (c : Config) : Prop where
  wf : c.wf = true
  t0h : c.t0h * c.tickNs = 350
  t1h : c.t1h * c.tickNs = 900
  tbit : c.tbit * c.tickNs = 1250
  tol : c.tolNs ≤ 150

section NominalTiming

variable {c : Config}

/-- A bit's HIGH run is read as the bit: the two nominal dwells are further apart than the tolerance. -/
theorem receiveRun_high (h : NominalDwells c) (b : Bool) : receiveRun c (true, c.th b) = [.bit b] := by
  have htol := h.tol
  cases b
  · simp [receiveRun, Config.th, withinTol, h.t0h, Config.t0hNs]
  · have hfar : ¬ 900 ≤ 350 + c.tolNs := by omega
    simp [receiveRun, Config.th, withinTol, h.t1h, Config.t0hNs, Config.t1hNs, hfar]

/-- A bit's LOW run is shorter than the bit period, so it only separates two bits. -/
theorem receiveRun_low (h : NominalDwells c) (b : Bool) : receiveRun c (false, c.tl b) = [] := by
  have hle : c.tl b * c.tickNs ≤ 1250 := h.tbit ▸ Nat.mul_le_mul_right _ (Nat.sub_le _ _)
  have hshort : ¬ Config.latchNs ≤ c.tl b * c.tickNs := by
    unfold Config.latchNs
    omega
  simp [receiveRun, hshort]

/-- LOW for the latch minimum or longer is the end of the frame. -/
theorem receive_latch {k : Nat} (hk : 50000 ≤ k * c.tickNs) : receive c (List.replicate k false) = [.frameEnd] := by
  have hpos : 0 < k := by
    rcases Nat.eq_zero_or_pos k with rfl | h
    · simp at hk
    · exact h
  have hrun := receive_dwell c (b := false) (rest := []) hpos nofun
  rw [List.append_nil] at hrun
  rw [hrun, receiveRun, if_pos (by exact hk)]
  rfl

/-- A bit's waveform starts HIGH. -/
theorem symWave_append_head (hw : c.wf = true) (b : Bool) (rest : List Bool) :
    (symWave c b ++ rest).head? = some true := by
  obtain ⟨m, hm⟩ : ∃ m, c.th b = m + 1 := ⟨c.th b - 1, by have := th_bounds hw b; omega⟩
  rw [symWave, hm]
  rfl

/-- Bit by bit: the LOW dwell of the last bit runs into the latch, that of any other ends in the next bit's rising
edge. -/
theorem receive_bits (h : NominalDwells c) {k : Nat} (hk : 50000 ≤ k * c.tickNs) (bits : List Bool) :
    receive c (bits.flatMap (symWave c) ++ List.replicate k false) = bits.map RxItem.bit ++ [.frameEnd] := by
  induction bits with
  | nil => exact receive_latch hk
  | cons b bits ih =>
    obtain ⟨hhigh, hlow⟩ := th_bounds h.wf b
    obtain ⟨m, hm⟩ : ∃ m, c.tl b = m + 1 := ⟨c.tl b - 1, by unfold Config.tl; omega⟩
    have hrest : receive c (List.replicate (c.tl b) false ++ (bits.flatMap (symWave c) ++ List.replicate k false)) =
        bits.map RxItem.bit ++ [.frameEnd] := by
      cases bits with
      | nil =>
        have hlatch : 50000 ≤ (c.tl b + k) * c.tickNs := hk.trans (Nat.mul_le_mul_right _ (Nat.le_add_left _ _))
        rw [List.flatMap_nil, List.nil_append, ← List.replicate_add]
        exact receive_latch hlatch
      | cons d bits =>
        have hedge : ((d :: bits).flatMap (symWave c) ++ List.replicate k false).head? ≠ some false := by
          rw [List.flatMap_cons, List.append_assoc, symWave_append_head h.wf]
          decide
        rw [receive_dwell c (by omega) hedge, receiveRun_low h, List.nil_append, ih]
    have hfall : (List.replicate (c.tl b) false ++ (bits.flatMap (symWave c) ++ List.replicate k false)).head? ≠
        some true := by
      rw [hm]
      nofun
    rw [List.flatMap_cons, symWave, List.append_assoc, List.append_assoc, receive_dwell c (by omega) hfall,
      receiveRun_high h, hrest]
    rfl

end NominalTiming

/-- Settles O56: the frame is its bits' symbols one after another. -/
theorem receiverReadsBackTheFrame : Obligations.ReceiverReadsBackTheFrame := by
  intro c bytes k hw h0 h1 hbit htol hk
  have hwave : frameWave c bytes = (frameBits bytes).flatMap (symWave c) := (shown_true_false c bytes).symm
  rw [hwave]
  exact receive_bits ⟨hw, h0, h1, hbit, htol⟩ hk (frameBits bytes)

/-! ## The source's dwells -/

/-- A symbol is LOW for the rest of its bit period. -/
@[simp] theorem symWave_count_false (c : Config) (b : Bool) : (symWave c b).count false = c.tl b := by
  simp [symWave, List.count_replicate]

/-- Exact tick counts, out of the check. -/
theorem nominal_iff (c : Config) : c.nominal = true ↔
    c.t0h * c.tickNs = 350 ∧ c.t1h * c.tickNs = 900 ∧ c.tl false * c.tickNs = 900 ∧ c.tl true * c.tickNs = 350 ∧
      c.tbit * c.tickNs = 1250 := by
  simp only [Config.nominal, Bool.and_eq_true, decide_eq_true_eq, and_assoc]
  rfl

/-- Settles O54: a symbol's HIGH and LOW samples are the dwells whose lengths in ns the check fixes. -/
theorem symbolsHaveTheSourcesDwells : Obligations.SymbolsHaveTheSourcesDwells := by
  refine ⟨by decide, fun c b hw hn => ?_⟩
  obtain ⟨h0h, h1h, h0l, h1l, hbit⟩ := (nominal_iff c).mp hn
  have hfit : c.th b ≤ c.tbit := by
    have := th_bounds hw b
    omega
  rw [symWave_count_true, symWave_count_false, symWave_length hfit]
  cases b
  · exact ⟨h0h, h0l, hbit⟩
  · exact ⟨h1h, h1l, hbit⟩

end Sys2Proof.Machine
end

section
/-! SUPPORT. The wire symbols on the strip's line (30_encoding.md R94, R95; log 12): the level after the line is driven,
and what a pulse and a latch leave. -/

namespace Sys2Proof.Machine

open Sys2Proof

/-- The line shows the level it was driven to. -/
@[simp] theorem State.level_driveLine (s : State) (high : Bool) : (s.driveLine high).level s.cfg.strip = high := by
  rw [State.driveLine, State.level_ioWrite_same]
  cases high
  · exact clearBits_bitMask_level _ _
  · exact or_bitMask_level _ _

/-- Of a pulse's two drives of the line the second is the one that lasts. -/
theorem State.pulse_io (s : State) (th : Nat) : (s.pulse th).io = (s.driveLine false).io := by
  simp [State.pulse, State.driveLine, State.ioRead]

/-- A pulse changes nothing but the I/O space and the record. -/
theorem State.pulse_frame (s : State) (th : Nat) : { s.pulse th with io := s.io, wave := s.wave } = s := by
  simp

/-- A pulse puts its HIGH dwell and the rest of the bit period on the record. -/
theorem State.pulse_wave (s : State) (th : Nat) :
    (s.pulse th).wave = List.replicate (s.cfg.tbit - th) false ++ List.replicate th true ++ s.wave := by
  have hhigh : (s.driveLine true).level s.cfg.strip = true := s.level_driveLine true
  have hlow : (((s.driveLine true).hold th).driveLine false).level s.cfg.strip = false :=
    State.level_driveLine ((s.driveLine true).hold th) false
  simp [State.pulse, hhigh, hlow]

/-- A state whose line was left LOW by a symbol: the pin's bit cleared, its neighbours kept, and nothing but the
I/O space and the record changed. -/
theorem symbol_frame {s t : State} (hio : t.io = (s.driveLine false).io)
    (hrest : { t with io := s.io, wave := s.wave } = s) :
    Safety.LowAt s.cfg.strip.bit (s.ioRead s.cfg.strip.addr) (t.ioRead s.cfg.strip.addr) ∧
      (∀ a, a ≠ s.cfg.strip.addr → t.ioRead a = s.ioRead a) ∧ { t with io := s.io, wave := s.wave } = s := by
  have hread : ∀ a, t.ioRead a = (s.driveLine false).ioRead a := fun a => congrArg (Memory.read · a) hio
  refine ⟨?_, fun a ha => ?_, hrest⟩
  · rw [hread, State.driveLine, State.ioRead_ioWrite_same]
    exact lowAt_clearBits _ _
  · rw [hread]
    exact State.ioRead_ioWrite_other s _ ha

/-- What a pulse does to the state. -/
theorem pulse_spec (s : State) (th : Nat) :
    (s.pulse th).wave = List.replicate (s.cfg.tbit - th) false ++ List.replicate th true ++ s.wave ∧
      Safety.LowAt s.cfg.strip.bit (s.ioRead s.cfg.strip.addr) ((s.pulse th).ioRead s.cfg.strip.addr) ∧
      (∀ a, a ≠ s.cfg.strip.addr → (s.pulse th).ioRead a = s.ioRead a) ∧
      { s.pulse th with io := s.io, wave := s.wave } = s :=
  ⟨s.pulse_wave th, symbol_frame (s.pulse_io th) (s.pulse_frame th)⟩

/-- Settles O23: SYM0 and SYM1 are pulses of their HIGH dwells, LATCHSYM holds the line LOW. -/
theorem symbolsPulseTheLine : Obligations.SymbolsPulseTheLine := by
  intro s
  refine ⟨⟨_, rfl, pulse_spec s s.cfg.t0h⟩, ⟨_, rfl, pulse_spec s s.cfg.t1h⟩,
    ⟨(s.driveLine false).hold s.cfg.latchTicks, rfl, ?_, symbol_frame rfl rfl⟩⟩
  have hlow : (s.driveLine false).level s.cfg.strip = false := s.level_driveLine false
  simp [hlow]

end Sys2Proof.Machine
end

section
/-! SUPPORT. The waveform of a successful call (30_encoding.md R96, 46_orchestration.md R207): what the chain records when
it hangs on the request's pin, and from that the levels of any pin a request names. -/

namespace Sys2Proof.Machine

open Sys2Proof

/-! ## The record of a call on the chain's own pin -/

/-- The set-up leaves the chain's pin LOW. -/
theorem stripLow_strip (s : State) : s.stripLow s.cfg.strip = false := by
  rw [State.stripLow, State.level_ioWrite_same]
  exact clearBits_bitMask_level _ _

/-- With the target latched, the chain's pin is HIGH after a rising edge and LOW after a falling one. -/
theorem preloaded_levels (s : State) (len : Half) (pin : Byte) (b : Byte) :
    (s.preloaded len pin s.cfg.strip b).highLevel = true ∧ (s.preloaded len pin s.cfg.strip b).lowLevel = false :=
  ⟨(State.level_ioWrite_same _ s.cfg.strip _).trans (or_bitMask_level _ _),
    (State.level_ioWrite_same _ s.cfg.strip _).trans (clearBits_bitMask_level _ _)⟩

/-- The byte PRELOAD fetched and those that follow are the request's bytes. -/
theorem preloaded_pendingBytes {s : State} (len : Half) (pin : Byte) (r : PinRef) {n : Nat}
    (h : n + 1 ≤ s.buf.length) :
    (s.preloaded len pin r (s.buf[0]?.getD 0)).pendingBytes n = s.buf.take (n + 1) := by
  show s.buf[0]?.getD 0 :: (s.buf.drop 1).take n = _
  cases hbuf : s.buf with
  | nil => simp [hbuf] at h
  | cons b rest => rfl

/-- The record in RELEASE of a call on the chain's pin. -/
theorem sent_wave {s : State} {len : Half} (pin : Byte) (hlen : 3 * len.toNat ≤ s.buf.length) :
    (s.sent len pin s.cfg.strip).wave = (frameWave s.cfg (s.buf.take (3 * len.toNat))).reverse ++
      (List.replicate 4 false ++ (List.replicate 2 (s.level s.cfg.strip) ++ s.wave)) := by
  have hlow := stripLow_strip s
  unfold State.sent
  split
  · next h0 =>
    subst h0
    simp [State.emptyEnd, frameWave, hlow]
  · next h0 =>
    have hpos : len.toNat ≠ 0 := fun e => h0 (BitVec.eq_of_toNat_eq e)
    obtain ⟨hhi, hlo⟩ := preloaded_levels s len pin (s.buf[0]?.getD 0)
    have hbytes := preloaded_pendingBytes (s := s) len pin s.cfg.strip (n := 3 * len.toNat - 1) (by omega)
    rw [show 3 * len.toNat - 1 + 1 = 3 * len.toNat by omega] at hbytes
    rw [State.engineEnd, hhi, hlo, hbytes, shown_true_false, State.preloaded, hlow]
    rfl

/-- In RELEASE the chain's pin is LOW, whether or not a bit was sent. -/
theorem sent_level (s : State) (len : Half) (pin : Byte) :
    (s.sent len pin s.cfg.strip).level s.cfg.strip = false := by
  unfold State.sent
  split
  · exact stripLow_strip s
  · exact (preloaded_levels s len pin _).2

/-- The latch and the return add their samples of a pin that stays as RELEASE found it. -/
theorem returned_wave (s : State) : s.latched.returnToIdle.sample.wave =
    List.replicate (s.cfg.latchTicks + 2) (s.level s.cfg.strip) ++ s.wave := by
  show s.level s.cfg.strip ::
    (List.replicate s.cfg.latchTicks (s.level s.cfg.strip) ++ (s.level s.cfg.strip :: s.wave)) = _
  rw [List.replicate_succ, List.replicate_succ', List.cons_append, List.append_assoc]
  rfl

/-- The record of a successful call on the chain's pin, in time order. -/
theorem call_trace {s : State} {len : Half} (pin : Byte) (hlen : 3 * len.toNat ≤ s.buf.length) :
    (s.sent len pin s.cfg.strip).latched.returnToIdle.sample.trace =
      s.trace ++ List.replicate 2 (s.level s.cfg.strip) ++ List.replicate 4 false ++
        frameWave s.cfg (s.buf.take (3 * len.toNat)) ++ List.replicate (s.cfg.latchTicks + 2) false := by
  have hlow : (s.sent len pin s.cfg.strip).level (s.sent len pin s.cfg.strip).cfg.strip = false := by
    rw [State.sent_cfg, sent_level]
  rw [State.trace, returned_wave, hlow, State.sent_cfg, sent_wave pin hlen]
  simp [State.trace]

/-- Settles O43: the call returns the state of `call_trace` with `start` dropped. -/
theorem callSendsTheFrame : Obligations.CallSendsTheFrame :=
  fun _ _ pin hm hl hp => ⟨_, exec_setstripe_success hm hl hp, call_trace pin (hm.2.2.2 hl)⟩

/-! ## The waveform on the pin a request names -/

/-- A successful call as a run of ticks, from the request on the ports to the IDLE state after it. -/
theorem call_run {s : State} {len : Half} {pin : Byte} {r : PinRef} (hm : Safety.MayCall s len)
    (hl : len.toNat ≤ 21845) (hp : s.resolve pin = some r) :
    RunWhile (fun _ => True) (Safety.successSteps s len) (s.present len pin)
      (s.sent len pin r).latched.returnToIdle.sample := by
  have haccept := RunWhile.one (P := fun _ => True) trivial (accept_tick pin hm)
  have hwork := (success_run hm hl hp).mono (Q := fun _ => True) fun _ _ => trivial
  have hports : (s.sent len pin r).latched.ports.rst = false := by
    show (s.sent len pin r).ports.rst = false
    rw [State.sent_ports]
    exact hm.2.2.1
  have hreturn := RunWhile.one (P := fun _ => True) trivial (done_tick hports rfl)
  refine ((haccept.trans hwork).trans hreturn).cast ?_
  unfold Safety.successSteps
  omega

/-- The waveform on a pin is its level in the first state, then the record of the same run with the chain on that pin. -/
theorem waveform_eq_restrip {P Q : State → Prop} {n : Nat} {s t u : State} {pin : Byte} {r : PinRef}
    (hs : Safety.Undisturbed s) (h : RunWhile P n s t) (hp : s.resolve pin = some r)
    (h' : RunWhile Q n (s.restrip r []) u) : waveform pin (n + 1) s = s.level r :: u.trace := by
  have hend := (run_restrip r [] hs h).end_unique h'
  have hhead : visited (n + 1) s = s :: (visited (n + 1) s).tail := rfl
  rw [waveform_of_run hs h hp, hhead, List.map_cons, State.trace, ← hend]
  simp [State.restrip]

/-- Settles O49: put the chain on the request's pin, where the record is the frame's waveform. -/
theorem callShowsItsWaveformOnItsPin : Obligations.CallShowsItsWaveformOnItsPin := by
  intro s len pin r hm ha hl hp
  have hs : Safety.Undisturbed s := ⟨hm.1, ha, hm.2.2.1⟩
  have hm' : Safety.MayCall (s.restrip r []) len :=
    ⟨(restrip_undisturbed [] hs (resolve_fits hm.1 hp)).1, hm.2⟩
  have hrun' := call_run (s := s.restrip r []) (pin := pin) hm' hl hp
  have hwave := waveform_eq_restrip (s := s.present len pin) (by exact hs) (call_run hm hl hp) hp hrun'
  exact hwave.trans (congrArg (s.level r :: ·) (call_trace (s := s.restrip r []) pin (hm.2.2.2 hl)))

end Sys2Proof.Machine
end

section
/-! SUPPORT. VALIDATE's two paths (41_validator.md R121), by the limit in pixels that the exact product comes to (R122). -/

namespace Sys2Proof.Machine

open Sys2Proof

theorem execValidate_of_le {s : State} (h : s.len.toNat ≤ 21845) :
    execValidate s = .next { s with remain := BitVec.ofNat 16 (wireBytes s.len), fsm := .pininit } :=
  if_pos ((lengthFits_iff s.len).mpr h)

theorem execValidate_of_gt {s : State} (h : 21845 < s.len.toNat) :
    execValidate s = .next { s with err := .tooManyPixels, fsm := .done } :=
  if_neg fun hfits => Nat.not_le.mpr h ((lengthFits_iff s.len).mp hfits)

/-- Settles O10: the product passes up to 21845 pixels, and there its sixteen bits are the whole of it. -/
theorem validateComparesTheExactProduct : Obligations.ValidateComparesTheExactProduct := by
  intro s
  refine ⟨fun hfits => ?_, fun hover => ?_, by omega⟩
  · have hlen : s.len.toNat ≤ 21845 := by omega
    exact ⟨_, (wireBytes_toNat hlen).trans (Nat.mul_comm _ _), execValidate_of_le hlen⟩
  · exact execValidate_of_gt (by omega)

end Sys2Proof.Machine
end

section
/-! SUPPORT. The two outcomes of the resolver (42_pin_resolver.md R130): the set-up service (R132) and the latching of
the target (R134), for a pin that resolves and for one that does not. -/

namespace Sys2Proof.Machine

open Sys2Proof

theorem State.pinConfigOutLow_of_unresolved {s : State} {p : Byte} (hp : s.resolve p = none) :
    s.pinConfigOutLow p = s := by
  rw [State.pinConfigOutLow, hp]

theorem State.pinConfigOutLow_of_resolved {s : State} {p : Byte} {r : PinRef} (hp : s.resolve p = some r) :
    s.pinConfigOutLow p =
      { s.ioWrite r.addr (clearBits (s.ioRead r.addr) (bitMask r.bit)) with
        outmode := PinSet.insert s.outmode r } := by
  rw [State.pinConfigOutLow, hp]

theorem execResolve_of_unresolved {s : State} (hp : s.resolve s.pin = none) :
    execResolve s = .next { s with err := .pinResolution, fsm := .release } := by
  rw [execResolve, hp]
  rfl

theorem execResolve_of_resolved {s : State} {r : PinRef} (hp : s.resolve s.pin = some r) :
    execResolve s = .next { s with ioaddr := r.addr, mask := bitMask r.bit, fsm := .preload } := by
  rw [execResolve, hp]

/-- Settles O11: the set-up service is the identity on an unresolvable pin, and on a resolvable one it writes IO and
OUTMODE alone, as `runOp_pininit_resolved` says. -/
theorem pininitSetsThePinLowAndOutput : Obligations.PininitSetsThePinLowAndOutput := by
  intro s
  refine ⟨fun hp => ?_, fun r hp => ?_⟩
  · show Host.Outcome.next { s.pinConfigOutLow s.pin with fsm := .acquire } = _
    rw [State.pinConfigOutLow_of_unresolved hp]
  · obtain ⟨hlow, hother, hout⟩ := runOp_pininit_resolved rfl hp
    refine ⟨_, rfl, rfl, hlow, hother, hout, ?_⟩
    rw [State.pinConfigOutLow_of_resolved hp]
    rfl

/-- Settles O14: `1 << b` has exactly bit `b` set. -/
theorem resolveLatchesAOneHotTarget : Obligations.ResolveLatchesAOneHotTarget :=
  fun _ => ⟨execResolve_of_unresolved, fun r hp => ⟨bitMask r.bit, bitMask_testBit r.bit, execResolve_of_resolved hp⟩⟩

end Sys2Proof.Machine
end

section
/-! SUPPORT. The interrupt guard (43_interrupt_guard.md): RELEASE's two paths (R143), the window of guarded states in the
state graph (R144), and GIE along a call and after it (R145). -/

namespace Sys2Proof.Machine

open Sys2Proof

/-- Settles O12: ACQUIRE has one path. -/
theorem acquireSavesAndClearsInterruptEnable : Obligations.AcquireSavesAndClearsInterruptEnable := fun _ => rfl

theorem execRelease_of_noError {s : State} (h : s.err = .noError) :
    execRelease s = .next { s with gie := s.token, tcnt := 0, fsm := .latch } := if_pos h

theorem execRelease_of_error {s : State} (h : s.err ≠ .noError) :
    execRelease s = .next { s with gie := s.token, fsm := .done } := if_neg h

/-- Settles O13: one path for each answer to `ERR = 0`. -/
theorem releaseRestoresInterruptEnable : Obligations.ReleaseRestoresInterruptEnable :=
  fun _ => ⟨execRelease_of_noError, execRelease_of_error⟩

/-! ## The guard step by step -/

/-- An operation leads to the successor its state has in the table of 46_orchestration.md R205. -/
theorem runOp_fsm {s t : State} (h : runOp s.fsm s = .next t) : t.fsm = Safety.successor s := by
  unfold Safety.successor
  cases hf : s.fsm <;> rw [hf] at h
  case idle =>
    simp only [runOp, execIdle] at h
    split at h
    · split at h <;> cases h
      simp [*]
    · cases h
      simp [*]
  case validate =>
    simp only [runOp, execValidate, lengthFits_iff] at h
    split at h <;> cases h <;> simp [*]
  case resolve =>
    simp only [runOp, execResolve] at h
    split at h <;> cases h <;> simp [*]
  case preload =>
    have hempty : s.remain = 0 ↔ s.remain.toNat = 0 := BitVec.toNat_eq
    simp only [runOp, execPreload, hempty] at h
    split at h <;> cases h <;> simp [*]
  case extract =>
    simp only [runOp, execExtract, topBit, Config.th] at h
    cases hb : s.shreg.getLsbD 7 <;> simp only [hb] at h <;> cases h <;> simp
  case decideContinue =>
    have hlast : s.remain - 1 = 0 ↔ s.remain.toNat = 1 := by
      rw [sub_eq_zero, BitVec.toNat_eq]
      rfl
    have hbyte : s.bitcnt = 1 ↔ s.bitcnt.toNat = 1 := BitVec.toNat_eq
    simp only [runOp, execDecide, hlast, hbyte, ne_eq] at h
    split at h
    · cases h
      simp [*]
    · split at h <;> cases h <;> simp [*]
  case release =>
    simp only [runOp, execRelease] at h
    split at h <;> cases h <;> simp [*]
  case driveLow | fillLow =>
    cases h
    have hedge : s.tcnt.toNat + 2 = s.cfg.tbit ↔ s.tcnt.toNat + 1 = s.cfg.tbit - 1 := by omega
    simp only [hedge]
  all_goals
    cases h
    rfl

/-- The guarded states are entered by ACQUIRE and left by RELEASE alone. -/
theorem guarded_successor (s : State) :
    Safety.Guarded (Safety.successor s) ↔ s.fsm = .acquire ∨ (Safety.Guarded s.fsm ∧ s.fsm ≠ .release) := by
  unfold Safety.successor
  cases s.fsm <;> dsimp only
  case extract => split <;> split <;> simp [Safety.Guarded]
  case pininit | acquire | driveHigh | done => simp [Safety.Guarded]
  all_goals split <;> simp [Safety.Guarded]

theorem not_guarded_acquire : ¬ Safety.Guarded .acquire := by
  simp [Safety.Guarded]

theorem guarded_release : Safety.Guarded .release := by
  simp [Safety.Guarded]

/-- Settles O36: the step is an operation; where it leads is the state graph's, and what it does to TOKEN and GIE is
ACQUIRE's, RELEASE's, or the frame of all others. -/
theorem guardIsHeldUntilReleased : Obligations.GuardIsHeldUntilReleased := by
  intro s t hs hstep
  rw [step_undisturbed hs] at hstep
  obtain ⟨hreset, -⟩ | ⟨u, -, hop, rfl⟩ := clock_next hstep
  · simp [hs.2.2] at hreset
  obtain ⟨-, -, -, -, -, -, -, -, htoken, hgie, -⟩ := registersHaveTheirOnlyWriters s.fsm s u (by rwa [exec_instr])
  have hwindow := guarded_successor s
  rw [← runOp_fsm hop] at hwindow
  simp only [State.sample_fsm, State.sample_gie, State.sample_token]
  refine ⟨fun hf => ?_, fun hg hr => ?_, fun hf => ?_, fun hg ha => ?_⟩
  · have hguarded := hwindow.mpr (.inl hf)
    rw [hf] at hop
    cases hop
    exact ⟨rfl, rfl, hguarded⟩
  · have ha : s.fsm ≠ .acquire := fun hf => not_guarded_acquire (hf ▸ hg)
    exact ⟨htoken ha, hgie ha hr, hwindow.mpr (.inr ⟨hg, hr⟩)⟩
  · have hdata := runOp_gie_of_gieWe ((gieWe_iff s).mpr (.inr hf)) hop
    exact ⟨by simpa [State.outPorts, State.gieWdata, hf] using hdata, by simp [hwindow, hf]⟩
  · have hr : s.fsm ≠ .release := fun hf => hg (hf ▸ guarded_release)
    exact ⟨hgie ha hr, by simp [hwindow, hg, ha]⟩

/-! ## GIE along a successful call -/

/-- Every state of a run has what the states before its end and the end have. -/
theorem RunWhile.state_at {P : State → Prop} {k n : Nat} {s t : State} (h : RunWhile P n s t) (ht : P t) (hk : k ≤ n) :
    ∃ u, RunWhile P k s u ∧ P u := by
  obtain ⟨u, hu, hrest⟩ := h.cut hk
  rcases Nat.eq_or_lt_of_le hk with rfl | hlt
  · obtain rfl : u = t := hrest.cast (Nat.sub_self k)
    exact ⟨u, hu, ht⟩
  · exact ⟨u, hu, hrest.head (Nat.sub_pos_of_lt hlt)⟩

/-- States 0 to 3: the request on the ports to ACQUIRE, GIE as it was. -/
theorem setUp_run {s : State} {len : Half} {pin : Byte} {r : PinRef} (hm : Safety.MayCall s len)
    (hl : len.toNat ≤ 21845) (hp : s.resolve pin = some r) :
    RunWhile (fun u => u.gie = s.gie) 3 (s.present len pin) (s.setUp len pin r) := by
  have hr := hm.2.2.1
  have h0 : RunWhile (fun u => u.gie = s.gie) 1 (s.present len pin) (s.accepted len pin) := .one rfl (accept_tick pin hm)
  have h1 : RunWhile (fun u => u.gie = s.gie) 1 (s.accepted len pin) (s.validated len pin) :=
    .one rfl (validate_tick pin hr hl)
  have h2 : RunWhile (fun u => u.gie = s.gie) 1 (s.validated len pin) (s.setUp len pin r) :=
    .one rfl (setUp_tick len hr hp)
  exact (h0.trans h1).trans h2

/-- State 4 to RELEASE: GIE is off. -/
theorem guarded_run {s : State} {len : Half} {pin : Byte} {r : PinRef} (hm : Safety.MayCall s len)
    (hl : len.toNat ≤ 21845) (hp : s.resolve pin = some r) :
    RunWhile (fun u => u.gie = false) (2 + 8 * (3 * len.toNat) * s.cfg.tbit) (s.guarded len pin r)
      (s.sent len pin r) := by
  have htarget : RunWhile (fun u => u.gie = false) 1 (s.guarded len pin r) (s.targeted len pin r) :=
    .one rfl (resolve_tick len hm.2.2.1 hp)
  exact (htarget.trans ((sent_run pin r hm hl).mono fun _ h => h.2)).cast (by omega)

theorem State.sent_gie (s : State) (len : Half) (pin : Byte) (r : PinRef) : (s.sent len pin r).gie = false := by
  unfold State.sent; split <;> rfl

/-- LATCH to the return: GIE is what it was before the call. -/
theorem released_run {s : State} {len : Half} (pin : Byte) (r : PinRef) (hm : Safety.MayCall s len) :
    RunWhile (fun u => u.gie = s.gie) (s.cfg.latchTicks + 1) (s.sent len pin r).latching
      (s.sent len pin r).returned := by
  have h := return_run (s := s.sent len pin r) (by rw [State.sent_cfg, hm.1]) (by rw [State.sent_ports]; exact hm.2.2.1)
  rw [State.sent_cfg, State.sent_token] at h
  exact h.mono fun _ hu => hu.2

/-- Settles O44: the call is three runs, joined by the ACQUIRE tick and the RELEASE tick, and GIE has one value in each. -/
theorem interruptsAreOffExactlyInTheWindow : Obligations.InterruptsAreOffExactlyInTheWindow := by
  intro s len pin r n hm ha hl hp hn
  have hs : Safety.Undisturbed (s.present len pin) := ⟨hm.1, ha, hm.2.2.1⟩
  have hbefore := setUp_run hm hl hp
  have hduring := guarded_run hm hl hp
  have hafter := released_run pin r hm
  have hacquire := acquire_tick len pin r hm.2.2.1
  have hrelease := release_tick (s := s.sent len pin r) (by rw [State.sent_ports]; exact hm.2.2.1)
    (s.sent_fsm len pin r) (s.sent_err len pin r)
  have hentry : RunWhile (fun _ => True) 4 (s.present len pin) (s.guarded len pin r) :=
    (hbefore.mono fun _ _ => trivial).trans (.one trivial hacquire)
  have hexit : RunWhile (fun _ => True) (7 + 8 * (3 * len.toNat) * s.cfg.tbit) (s.present len pin)
      (s.sent len pin r).latching :=
    ((hentry.trans (hduring.mono fun _ _ => trivial)).trans (.one trivial hrelease)).cast (by omega)
  rcases Nat.lt_or_ge n 4 with h4 | h4
  · obtain ⟨u, hrun, hgie⟩ := hbefore.state_at rfl (k := n) (by omega)
    exact ⟨u, steps_of_run hs hrun, by rw [hgie, if_neg (by omega)]⟩
  rcases Nat.lt_or_ge n (7 + 8 * (3 * len.toNat) * s.cfg.tbit) with h7 | h7
  · obtain ⟨u, hrun, hgie⟩ := hduring.state_at (s.sent_gie len pin r) (k := n - 4) (by omega)
    have hrun' := (hentry.trans (hrun.mono fun _ _ => trivial)).cast (n := n) (by omega)
    exact ⟨u, steps_of_run hs hrun', by rw [hgie, if_pos (by omega)]⟩
  · obtain ⟨u, hrun, hgie⟩ := hafter.state_at (s.sent_token len pin r)
      (k := n - (7 + 8 * (3 * len.toNat) * s.cfg.tbit)) (by omega)
    have hrun' := (hexit.trans (hrun.mono fun _ _ => trivial)).cast (n := n) (by omega)
    exact ⟨u, steps_of_run hs hrun', by rw [hgie, if_neg (by omega)]⟩

/-! ## GIE after a call -/

/-- Settles O45: the state a call returns is written out for each of its outcomes. -/
theorem callRestoresInterruptEnable : Obligations.CallRestoresInterruptEnable := by
  intro s len pin hm
  rcases Nat.lt_or_ge 21845 len.toNat with hl | hl
  · exact ⟨_, exec_setstripe_tooMany pin hm hl, rfl, rfl, iff_of_false nofun fun h => by omega⟩
  cases hp : s.resolve pin with
  | none => exact ⟨_, exec_setstripe_pinFailed hm hl hp, rfl, rfl, iff_of_false nofun (by simp)⟩
  | some r =>
    exact ⟨_, exec_setstripe_success hm hl hp, s.sent_token len pin r, rfl,
      iff_of_true (s.sent_ok len pin r) ⟨hl, rfl⟩⟩

end Sys2Proof.Machine
end

section
/-! SUPPORT. The operations of the engine, one by one (44_bit_engine.md R153 to R168): an equation per path of PRELOAD
and DECIDE, the counter of the fillers, and the order in which EXTRACT takes a byte's bits. -/

namespace Sys2Proof.Machine

open Sys2Proof

/-! ## The fetching operations -/

theorem State.bufByte_of_some {s : State} {i : Nat} {b : Byte} (h : s.buf[i]? = some b) : s.bufByte i = b := by
  rw [State.bufByte, h]

/-- A byte the caller owns costs no free value (log 8). -/
theorem State.drawsAfterRead_of_some {s : State} {i : Nat} {b : Byte} (h : s.buf[i]? = some b) :
    s.drawsAfterRead i = s.draws := by
  rw [State.drawsAfterRead, h]

theorem execPreload_of_zero {s : State} (h : s.remain = 0) :
    execPreload s = .next { s with ptr := 0, ok := true, fsm := .release } := if_pos h

theorem execPreload_of_ne_zero {s : State} (h : s.remain ≠ 0) :
    execPreload s = .next { s with
      shreg := s.bufByte 0, ptr := 1, bitcnt := 8, tcnt := 0, fsm := .driveHigh, draws := s.drawsAfterRead 0 } :=
  if_neg h

/-- Settles O15: the zero test chooses the path, and a bound first byte is the one read. -/
theorem preloadTestsForZeroAndFetches : Obligations.PreloadTestsForZeroAndFetches := by
  intro s
  refine ⟨execPreload_of_zero, fun h b rest hbuf => ?_, fun h _ => ⟨_, _, execPreload_of_ne_zero h⟩⟩
  have hbyte : s.buf[0]? = some b := by rw [hbuf]; rfl
  show execPreload s = _
  rw [execPreload_of_ne_zero h, State.bufByte_of_some hbyte, State.drawsAfterRead_of_some hbyte]

theorem execDecide_nextBit {s : State} (h : s.bitcnt ≠ 1) :
    execDecide s = .next { s with tcnt := 0, bitcnt := s.bitcnt - 1, fsm := .driveHigh } := if_pos h

theorem execDecide_lastByte {s : State} (hb : s.bitcnt = 1) (hr : s.remain = 1) :
    execDecide s = .next { s with tcnt := 0, remain := 0, ok := true, fsm := .release } := by
  have hzero : s.remain - 1 = 0 := sub_eq_zero.mpr hr
  rw [execDecide, if_neg (not_not.mpr hb), if_pos hzero, hzero]
  rfl

theorem execDecide_nextByte {s : State} (hb : s.bitcnt = 1) (hr : s.remain ≠ 1) :
    execDecide s = .next { s with
      tcnt := 0, remain := s.remain - 1, shreg := s.bufByte s.ptr.toNat, ptr := s.ptr + 1, bitcnt := 8
      fsm := .driveHigh, draws := s.drawsAfterRead s.ptr.toNat } := by
  rw [execDecide, if_neg (not_not.mpr hb), if_neg (mt sub_eq_zero.mp hr)]

/-- Settles O20: the two loop tests choose the path, and a byte of the bound buffer is the one read. -/
theorem decideClosesBothLoops : Obligations.DecideClosesBothLoops := by
  intro s
  refine ⟨execDecide_nextBit, execDecide_lastByte, fun hb hr b hbyte => ?_,
    fun hb hr _ => ⟨_, _, execDecide_nextByte hb hr⟩⟩
  show execDecide s = _
  rw [execDecide_nextByte hb hr, State.bufByte_of_some hbyte, State.drawsAfterRead_of_some hbyte]

/-! ## The two edges and the fillers -/

/-- Settles O16: the rising edge writes the port register, PORTVAL, TCNT and FSM. -/
theorem driveHighSetsThePinBit : Obligations.DriveHighSetsThePinBit := by
  intro s
  have hrun : exec .driveHigh s = .next _ := rfl
  obtain ⟨hio, hport, -, -, hframe⟩ := exec_driveHigh_stores hrun
  exact ⟨_, hrun, hio, hport, rfl, rfl, hframe, rfl⟩

/-- Settles O19: the falling edge writes the port register, PORTVAL, TCNT and FSM. -/
theorem driveLowStoresTheSavedValueXorMask : Obligations.DriveLowStoresTheSavedValueXorMask := by
  intro s
  have hrun : exec .driveLow s = .next _ := rfl
  obtain ⟨hio, hframe⟩ := exec_driveLow_stores hrun
  exact ⟨_, hrun, hio, rfl, rfl, rfl, hframe, rfl⟩

/-- Settles O18: the common count is TCNT + 1, exact below the counter's top. -/
theorem fillersCountToTheirEdge : Obligations.FillersCountToTheirEdge :=
  fun s => ⟨s.tcnt + 1, half_succ, rfl, rfl, rfl⟩

/-! ## The shift register -/

/-- Shifting a bit out moves every other bit one place up. -/
theorem shiftOut_getLsbD (b : Byte) {i : Nat} (hi : i < 7) : (shiftOut b).getLsbD (i + 1) = b.getLsbD i := by
  simp [shiftOut, BitVec.getLsbD_shiftLeft, show i + 1 < 8 by omega, -BitVec.getLsbD_eq_getElem]

/-- The bit that enters at the bottom is 0. -/
theorem shiftOut_getLsbD_zero (b : Byte) : (shiftOut b).getLsbD 0 = false := by
  simp [shiftOut]

/-- Settles O17: the bit leaving decides the branch; a dwell of two ticks has none. -/
theorem extractShiftsOutTheTopBit : Obligations.ExtractShiftsOutTheTopBit := by
  intro s
  exact ⟨_, rfl, rfl, shiftOut_getLsbD_zero s.shreg, fun _ hi => shiftOut_getLsbD s.shreg hi, rfl,
    fun hdwell => if_pos hdwell, fun hdwell => if_neg hdwell, rfl⟩

/-- The top bit of a byte shifted up by `j` places is its bit `7 - j`. -/
theorem topBit_shiftLeft (b : Byte) {j : Nat} (hj : j ≤ 7) : topBit (b <<< j) = b.getLsbD (7 - j) := by
  simp [topBit, BitVec.getLsbD_shiftLeft, Nat.not_lt.mpr hj, -BitVec.getLsbD_eq_getElem]

/-- Settles O30: before the k-th EXTRACT the byte has been shifted `k - 1` times. -/
theorem extractSendsMostSignificantBitFirst : Obligations.ExtractSendsMostSignificantBitFirst := by
  intro s b k hk hk8 hshreg
  refine ⟨_, rfl, ?_, ?_⟩
  · show topBit s.shreg = _
    rw [hshreg, topBit_shiftLeft b (by omega), show 7 - (k - 1) = 8 - k by omega]
  · show s.shreg <<< 1 = _
    rw [hshreg, ← BitVec.shiftLeft_add, show k - 1 + 1 = k by omega]

end Sys2Proof.Machine
end

section
/-! SUPPORT. A slot on the strip's line against the wire symbol of its bit (44_bit_engine.md R161,
30_encoding.md R94). -/

namespace Sys2Proof.Machine

open Sys2Proof

/-- A number with exactly one bit set is that bit's mask. -/
theorem eq_bitMask {m b : Nat} (h : ∀ i : Nat, m.testBit i = decide (i = b)) : m = bitMask b :=
  Nat.eq_of_testBit_eq fun i => (h i).trans (bitMask_testBit b i).symm

section StripTarget
variable {s : State} (ha : s.ioaddr = s.cfg.strip.addr) (hm : s.mask = bitMask s.cfg.strip.bit)
include ha hm

/-- The rising edge on the strip's own pin drives the line HIGH. -/
theorem highLevel_of_strip : s.highLevel = true := by
  rw [State.highLevel, ha, hm, State.level_ioWrite_same]
  exact or_bitMask_level _ _

/-- The falling edge on the strip's own pin drives the line LOW. -/
theorem lowLevel_of_strip : s.lowLevel = false := by
  rw [State.lowLevel, ha, hm, State.level_ioWrite_same]
  exact clearBits_bitMask_level _ _

/-- The record of a slot is that of its bit's symbol. -/
theorem nextBit_wave : s.nextBit.wave = (s.pulse (s.cfg.th (topBit s.shreg))).wave := by
  rw [State.pulse_wave, State.nextBit, highLevel_of_strip ha hm, lowLevel_of_strip ha hm]
  simp [shown]

/-- The port register after a slot is as its bit's symbol leaves it. -/
theorem nextBit_io (th : Nat) : s.nextBit.io = (s.pulse th).io := by
  rw [State.pulse_io, State.nextBit, ha, hm]
  rfl

end StripTarget

/-- The symbol rows are pulses of their bits' dwells. -/
theorem exec_sym (s : State) (b : Bool) : exec (if b then .sym1 else .sym0) s = .next (s.pulse (s.cfg.th b)) := by
  cases b <;> rfl

/-- Settles O37: the slot ends in the next bit's DRIVE_HIGH state, which is written out. -/
theorem slotSendsOneSymbol : Obligations.SlotSendsOneSymbol := by
  intro s hs hf ht hb ha hbits
  have hm := eq_bitMask hbits
  have hrun := nextBit_run hs.1 hs.2.2 hf hb
  refine ⟨s.nextBit, s.pulse (s.cfg.th (topBit s.shreg)), steps_of_run hs hrun, exec_sym s _, nextBit_wave ha hm,
    fun a => congrArg (Memory.read · a) (nextBit_io ha hm _), rfl, rfl, ?_, ?_⟩
  · show Safety.LowAt _ _ (clearBits (s.ioRead s.ioaddr) s.mask)
    rw [hm]
    exact lowAt_clearBits _ _
  · rw [State.nextBit, ← ht]

end Sys2Proof.Machine
end

section
/-! SUPPORT. The invariant of a call (44_bit_engine.md R174, 10_state.md R29, R31, R35): each operation leads from its
state's clause to its successor's clause, so a tick, a call and a step keep it. -/

namespace Sys2Proof.Machine

open Sys2Proof Safety

/-- Settles O33: IDLE asks nothing, and the default parameters are legal. -/
theorem resetMeetsTheCallInvariant : Obligations.ResetMeetsTheCallInvariant := ⟨trivial, by decide⟩

/-- The mask of a pin that exists is one-hot in the port's width. -/
theorem bitMask_oneHot {c : Config} {r : PinRef} (h : c.pinFits r = true) : OneHot c (bitMask r.bit) :=
  ⟨r.bit, of_decide_eq_true (Bool.and_eq_true_iff.mp h).2, bitMask_testBit r.bit⟩

/-- A value with the mask set has it clear once it is flipped. -/
theorem xor_and_of_and {v m : Nat} (h : v &&& m = m) : (v ^^^ m) &&& m = 0 := by
  rw [Nat.and_xor_distrib_right, h, Nat.and_self, Nat.xor_self]

theorem toNat_pred {w : Nat} {x : BitVec w} (h : 1 ≤ x.toNat) : (x - 1).toNat = x.toNat - 1 := by
  have hw : 1 < 2 ^ w := Nat.lt_of_le_of_lt h x.isLt
  have hone : (1 : BitVec w).toNat = 1 := Nat.mod_eq_of_lt hw
  rw [BitVec.toNat_sub_of_le (by rw [BitVec.le_def, hone]; exact h), hone]

/-- Within a slot `TCNT` does not wrap (R170). -/
theorem tcnt_succ {s : State} (hw : s.cfg.wf = true) (h : s.tcnt.toNat + 1 < s.cfg.tbit) :
    (s.tcnt + 1).toNat = s.tcnt.toNat + 1 := by
  obtain ⟨-, -, -, -, -, -, htbit, -⟩ := (wf_iff _).mp hw
  exact half_succ (by omega)

/-! ## Clauses that two states share -/

/-- The filler states before the falling edge. -/
theorem callInv_branch {u : State} (b : Bool) (hf : u.fsm = branchFsm b) (hin : InEngine u) (hlow : 2 ≤ u.tcnt.toNat)
    (hhigh : u.tcnt.toNat < u.cfg.th b) (hbit : u.curbit = b) (hport : u.portval &&& u.mask = u.mask) : CallInv u := by
  unfold CallInv
  rw [hf]
  cases b <;> exact ⟨hin, hlow, hhigh, hbit, hport⟩

/-- The states after a tick `n` of the LOW dwell: FILL_LOW until the last tick of the slot, and DECIDE in it. -/
theorem callInv_low {u : State} {n : Nat} (hcount : u.tcnt.toNat = n + 1)
    (hf : u.fsm = if n + 2 = u.cfg.tbit then .decideContinue else .fillLow) (hin : InEngine u)
    (hdwell : u.cfg.th u.curbit ≤ n) (hslot : n + 1 < u.cfg.tbit) (hport : u.portval &&& u.mask = 0) : CallInv u := by
  unfold CallInv
  split at hf <;> rw [hf]
  · exact ⟨hin, by omega, hport⟩
  · exact ⟨hin, by omega, by omega, hport⟩

/-- A byte just fetched has eight bits to go. -/
theorem eight_bits : 1 ≤ (8 : BitVec 4).toNat ∧ (8 : BitVec 4).toNat ≤ 8 := by decide

/-- The invariant is about the block's registers and the parameters: it does not see the environment, the ports, the
agenda and the record. -/
theorem callInv_congr {s t : State} (hs : CallInv s)
    (h : t = { s with
      io := t.io, gie := t.gie, outmode := t.outmode, buf := t.buf, ports := t.ports, agenda := t.agenda
      wave := t.wave }) : CallInv t := by
  rw [h]
  unfold CallInv at hs ⊢
  cases hf : s.fsm <;> rw [hf] at hs <;> exact hs

/-! ## Operation by operation -/

/-- PRELOAD: success with nothing to send, or the first byte with all its bits to go. -/
theorem execPreload_callInv {s t : State} (herr : s.err = .noError) (hok : s.ok = false) (hmask : OneHot s.cfg s.mask)
    (h : execPreload s = .next t) : CallInv t := by
  by_cases hr : s.remain = 0
  · rw [execPreload_of_zero hr] at h
    cases h
    exact (decide_eq_true herr).symm
  · rw [execPreload_of_ne_zero hr] at h
    cases h
    have hpos : s.remain.toNat ≠ 0 := fun e => hr (BitVec.eq_of_toNat_eq e)
    exact ⟨⟨herr, hok, hmask, eight_bits.1, eight_bits.2, Nat.one_le_iff_ne_zero.mpr hpos⟩, rfl⟩

/-- EXTRACT: the falling edge next when the dwell is two ticks, and else the bit's branch. -/
theorem execExtract_callInv {s t : State} (hw : s.cfg.wf = true) (hin : InEngine s)
    (hport : s.portval &&& s.mask = s.mask) (h : execExtract s = .next t) : CallInv t := by
  simp only [execExtract] at h
  split at h <;> cases h
  · next hcorner => exact ⟨hin, hcorner.symm, hport⟩
  · next hlong =>
    have hdwell : 2 < s.cfg.th (topBit s.shreg) := Nat.lt_of_le_of_ne (th_bounds hw _).1 (Ne.symm hlong)
    exact callInv_branch (topBit s.shreg) rfl hin le_rfl hdwell rfl hport

/-- BRANCH_ZERO and BRANCH_ONE count their bit's HIGH dwell. -/
theorem branch_callInv {s t : State} (b : Bool) (hw : s.cfg.wf = true) (hin : InEngine s) (hlow : 2 ≤ s.tcnt.toNat)
    (hhigh : s.tcnt.toNat < s.cfg.th b) (hbit : s.curbit = b) (hport : s.portval &&& s.mask = s.mask)
    (h : runOp (branchFsm b) s = .next t) : CallInv t := by
  have hdwell := (th_bounds hw b).2
  have hsucc := tcnt_succ hw (by omega)
  rw [branch_counts s.cfg b s rfl] at h
  split at h <;> cases h
  · next hedge => exact ⟨hin, by rw [hsucc, hedge, hbit], hport⟩
  · have hlow' : 2 ≤ (s.tcnt + 1).toNat := by omega
    have hhigh' : (s.tcnt + 1).toNat < s.cfg.th b := by omega
    exact callInv_branch b rfl hin hlow' hhigh' hbit hport

/-- DRIVE_LOW: the LOW dwell is two ticks or more, so the slot has not ended. -/
theorem execDriveLow_callInv {s t : State} (hw : s.cfg.wf = true) (hin : InEngine s)
    (hcount : s.tcnt.toNat = s.cfg.th s.curbit) (hport : s.portval &&& s.mask = s.mask)
    (h : execDriveLow s = .next t) : CallInv t := by
  have hdwell := (th_bounds hw s.curbit).2
  have hslot : s.tcnt.toNat + 1 < s.cfg.tbit := by omega
  have hsucc := tcnt_succ hw hslot
  cases h
  exact callInv_low hsucc rfl hin hcount.ge hslot (xor_and_of_and hport)

/-- FILL_LOW counts up to the last tick of the slot. -/
theorem execFillLow_callInv {s t : State} (hw : s.cfg.wf = true) (hin : InEngine s)
    (hdwell : s.cfg.th s.curbit < s.tcnt.toNat) (hslot : s.tcnt.toNat + 1 < s.cfg.tbit)
    (hport : s.portval &&& s.mask = 0) (h : execFillLow s = .next t) : CallInv t := by
  have hsucc := tcnt_succ hw hslot
  cases h
  exact callInv_low hsucc rfl hin hdwell.le hslot hport

/-- DECIDE: the next bit, success after the last byte, or the next byte with all its bits to go. -/
theorem execDecide_callInv {s t : State} (hin : InEngine s) (h : execDecide s = .next t) : CallInv t := by
  obtain ⟨herr, hok, hmask, hbits, hbits8, hbytes⟩ := hin
  by_cases hb : s.bitcnt = 1
  · by_cases hr : s.remain = 1
    · rw [execDecide_lastByte hb hr] at h
      cases h
      exact (decide_eq_true herr).symm
    · rw [execDecide_nextByte hb hr] at h
      cases h
      have hmore : s.remain.toNat ≠ 1 := fun e => hr (BitVec.eq_of_toNat_eq e)
      have hbytes' : 1 ≤ (s.remain - 1).toNat := by rw [toNat_pred hbytes]; omega
      exact ⟨⟨herr, hok, hmask, eight_bits.1, eight_bits.2, hbytes'⟩, rfl⟩
  · rw [execDecide_nextBit hb] at h
    cases h
    have hmore : s.bitcnt.toNat ≠ 1 := fun e => hb (BitVec.eq_of_toNat_eq e)
    have hpred := toNat_pred hbits
    exact ⟨⟨herr, hok, hmask, by rw [hpred]; omega, by rw [hpred]; omega, hbytes⟩, rfl⟩

/-- LATCH counts up to `LATCH_TICKS`. -/
theorem execLatch_callInv {s t : State} (hw : s.cfg.wf = true) (herr : s.err = .noError) (hok : s.ok = true)
    (hcount : s.tcnt.toNat < s.cfg.latchTicks) (h : execLatch s = .next t) : CallInv t := by
  obtain ⟨-, -, -, -, -, hlatch, -⟩ := (wf_iff _).mp hw
  have hsucc : (s.tcnt + 1).toNat = s.tcnt.toNat + 1 := half_succ (by omega)
  simp only [execLatch] at h
  split at h <;> cases h
  · exact hok.trans (decide_eq_true herr).symm
  · have hcount' : (s.tcnt + 1).toNat < s.cfg.latchTicks := by omega
    exact ⟨herr, hok, hcount'⟩

/-- Every operation leads from its state's clause to a clause of the invariant. -/
theorem runOp_callInv {s t : State} (hw : s.cfg.wf = true) (hs : CallInv s) (h : runOp s.fsm s = .next t) :
    CallInv t := by
  unfold CallInv at hs
  cases hf : s.fsm <;> rw [hf] at h hs
  case idle =>
    simp only [runOp, execIdle] at h
    split at h
    · split at h <;> cases h
      exact ⟨rfl, rfl⟩
    · cases h
      unfold CallInv
      rw [hf]
      trivial
  case validate =>
    obtain ⟨herr, hok⟩ := hs
    simp only [runOp, execValidate] at h
    split at h <;> cases h
    · exact ⟨herr, hok⟩
    · exact hok
  case pininit =>
    obtain ⟨herr, hok⟩ := hs
    cases h
    exact ⟨(State.pinConfigOutLow_err s s.pin).trans herr, (State.pinConfigOutLow_ok s s.pin).trans hok⟩
  case acquire =>
    cases h
    exact hs
  case resolve =>
    obtain ⟨herr, hok⟩ := hs
    cases hp : s.resolve s.pin with
    | none =>
      cases (execResolve_of_unresolved hp).symm.trans h
      exact hok
    | some r =>
      cases (execResolve_of_resolved hp).symm.trans h
      exact ⟨herr, hok, bitMask_oneHot (resolve_fits hw hp)⟩
  case preload =>
    obtain ⟨herr, hok, hmask⟩ := hs
    exact execPreload_callInv herr hok hmask h
  case driveHigh =>
    obtain ⟨hin, -⟩ := hs
    cases h
    exact ⟨hin, rfl, or_and_self _ _⟩
  case extract =>
    obtain ⟨hin, -, hport⟩ := hs
    exact execExtract_callInv hw hin hport h
  case branchZero =>
    obtain ⟨hin, hlow, hhigh, hbit, hport⟩ := hs
    exact branch_callInv false hw hin hlow hhigh hbit hport h
  case branchOne =>
    obtain ⟨hin, hlow, hhigh, hbit, hport⟩ := hs
    exact branch_callInv true hw hin hlow hhigh hbit hport h
  case driveLow =>
    obtain ⟨hin, hcount, hport⟩ := hs
    exact execDriveLow_callInv hw hin hcount hport h
  case fillLow =>
    obtain ⟨hin, hdwell, hslot, hport⟩ := hs
    exact execFillLow_callInv hw hin hdwell hslot hport h
  case decideContinue =>
    obtain ⟨hin, -⟩ := hs
    exact execDecide_callInv hin h
  case release =>
    by_cases herr : s.err = .noError
    · cases (execRelease_of_noError herr).symm.trans h
      exact ⟨herr, hs.trans (decide_eq_true herr), latchTicks_pos hw⟩
    · cases (execRelease_of_error herr).symm.trans h
      exact hs
  case latch =>
    obtain ⟨herr, hok, hcount⟩ := hs
    exact execLatch_callInv hw herr hok hcount h
  case done =>
    cases h
    trivial

/-! ## Ticks, calls and steps -/

/-- The invariant of a call, under a legal parameter set: what ticks keep. -/
def CallSound (s : State) : Prop := s.cfg.wf = true ∧ CallInv s

theorem clock_callSound {s t : State} (hs : CallSound s) (h : clock runOp s = .next t) : CallSound t := by
  obtain ⟨hw, hinv⟩ := hs
  rcases clock_next h with ⟨-, rfl⟩ | ⟨u, -, hop, rfl⟩
  · exact ⟨hw, trivial⟩
  · have hcfg : u.cfg = s.cfg := (runOp_frame hop).1
    exact ⟨hcfg ▸ hw, callInv_congr (runOp_callInv hw hinv hop) rfl⟩

theorem execSetstripe_callSound {len : Half} {pin : Byte} {s t : State} (hs : CallSound s)
    (h : execSetstripe len pin s = .next t) : CallSound t :=
  execSetstripe_keeps (P := CallSound) (fun _ _ => clock_callSound) (fun _ hu => ⟨hu.1, callInv_congr hu.2 rfl⟩)
    ⟨hs.1, callInv_congr hs.2 rfl⟩ h

/-- The environment reaches none of the registers the invariant is about. -/
theorem applyInput_callSound {s : State} (hs : CallSound s) (input : TickInput) : CallSound (s.applyInput input) := by
  obtain ⟨io, gie, outmode, buf, h⟩ := applyMoves_frame input.moves s
  unfold State.applyInput
  rw [h]
  exact ⟨hs.1, callInv_congr hs.2 rfl⟩

theorem bindBuffer_callSound {s : State} (hs : CallSound s) (pixels : List Byte) : CallSound (s.bindBuffer pixels) :=
  ⟨hs.1, callInv_congr hs.2 rfl⟩

theorem hold_callInv {s : State} (hs : CallInv s) (k : Nat) : CallInv (s.hold k) := callInv_congr hs rfl

theorem driveLine_callInv {s : State} (hs : CallInv s) (high : Bool) : CallInv (s.driveLine high) :=
  callInv_congr hs rfl

theorem pulse_callInv {s : State} (hs : CallInv s) (th : Nat) : CallInv (s.pulse th) :=
  hold_callInv (driveLine_callInv (hold_callInv (driveLine_callInv hs true) th) false) _

/-- A wire symbol drives the line and changes no register of the block. -/
theorem exec_symbol_callInv (symbol : Symbol) {s t : State} (hs : CallInv s) (h : exec symbol.instr s = .next t) :
    CallInv t := by
  cases symbol <;> cases h
  case zero | one => exact pulse_callInv hs _
  case latch => exact hold_callInv (driveLine_callInv hs false) _

/-- Settles O32: a step is a tick, a tick with its inputs, a call or a wire symbol, and each keeps the invariant. -/
theorem stepKeepsTheCallInvariant : Obligations.StepKeepsTheCallInvariant := by
  intro s t hs h
  cases hw : s.cfg.wf with
  | false => simp [step, hw] at h
  | true =>
    have hrest : ∀ rest, CallSound { s with agenda := rest } := fun _ => ⟨hw, callInv_congr hs rfl⟩
    rcases step_cases hw with ⟨-, hstep⟩ | ⟨input, rest, -, hstep⟩ | ⟨len, pin, pixels, rest, -, hstep⟩ |
      ⟨symbol, rest, -, hstep⟩ <;> rw [hstep] at h
    · exact (clock_callSound ⟨hw, hs⟩ h).2
    · exact (clock_callSound (applyInput_callSound (hrest rest) input) h).2
    · exact (execSetstripe_callSound (bindBuffer_callSound (hrest rest) pixels) h).2
    · exact exec_symbol_callInv symbol (hrest rest).2 h

end Sys2Proof.Machine
end

section
/-! SUPPORT. The frame latch (45_frame_latch.md R191), tick by tick and as the run of its `LATCH_TICKS` ticks. -/

namespace Sys2Proof.Machine

open Sys2Proof

/-- Settles O21: LATCH has one path. -/
theorem latchCountsOneTick : Obligations.LatchCountsOneTick := fun _ => rfl

/-- Legal parameters give a latch count that TCNT holds exactly. -/
theorem latchTicks_toNat {c : Config} (h : c.wf = true) : (BitVec.ofNat 16 c.latchTicks).toNat = c.latchTicks := by
  obtain ⟨-, -, -, -, -, hlt, -⟩ := (wf_iff c).mp h
  exact (BitVec.toNat_ofNat _ _).trans (Nat.mod_eq_of_lt hlt)

/-- Settles O38: the run of the latch counts up from 0 and ends in DONE, and each of its ticks samples the level the
line had at the start. -/
theorem latchHoldsForLatchTicks : Obligations.LatchHoldsForLatchTicks := by
  intro s hs hf ht
  have hcount : s.tcnt.toNat = 0 := by rw [ht]; rfl
  have hrun := latch_run hs.1 hs.2.2 hf hcount
  exact ⟨_, steps_of_run hs hrun, latchTicks_toNat hs.1, rfl, rfl, rfl⟩

end Sys2Proof.Machine
end

section
/-! SUPPORT. The blocking call (46_orchestration.md R200, R206 to R212) as the run of its ticks, from the request on the
ports to the return, and what its two failures leave and show. -/

namespace Sys2Proof.Machine

open Sys2Proof

/-! ## The run of a call -/

/-- The chain records one sample a tick (log 15). -/
theorem run_wave_length {P : State → Prop} {n : Nat} {s t : State} (hr : s.ports.rst = false) (h : RunWhile P n s t) :
    t.wave.length = s.wave.length + n := by
  induction n generalizing s with
  | zero => rw [← h]; rfl
  | succ n ih =>
    obtain ⟨-, u, hu, hrest⟩ := h
    obtain ⟨-, -, hports, hwave⟩ := clock_frame hr hu
    rw [ih (by rw [hports, hr]) hrest, hwave, List.length_cons]
    omega

/-- Every accepted request ends: it reaches DONE within R206's bound, whatever its outcome. -/
theorem exists_run_to_done {s : State} {len : Half} (pin : Byte) (hm : Safety.MayCall s len) :
    ∃ n d, RunWhile Working n (s.accepted len pin) d ∧ d.fsm = .done ∧ n + 2 ≤ callTicks s.cfg len := by
  have hr := hm.2.2.1
  rcases Nat.lt_or_ge 21845 len.toNat with hl | hl
  · exact ⟨1, _, tooMany_run pin hr hl, rfl, by unfold callTicks; omega⟩
  cases hp : s.resolve pin with
  | none => exact ⟨5, _, pinFailed_run hr hl hp, rfl, by unfold callTicks; omega⟩
  | some r =>
    refine ⟨_, _, success_run hm hl hp, rfl, ?_⟩
    unfold callTicks wireBytes
    rw [Nat.mul_comm 3]
    omega

/-- A run to DONE goes on to the return to IDLE, busy up to there. -/
theorem RunWhile.to_idle {n : Nat} {s d : State} (hr : s.ports.rst = false) (h : RunWhile Working n s d)
    (hd : d.fsm = .done) : RunWhile (fun u => u.fsm ≠ .idle) (n + 1) s d.returnToIdle.sample := by
  have hdr : d.ports.rst = false := by rw [run_ports hr h, hr]
  exact (h.mono fun _ hu => hu.1).trans (.one (by rw [hd]; decide) (done_tick hdr hd))

/-- The whole call as a run, from the state with the request on the ports. -/
theorem call_run_of_run {s d : State} {len : Half} {pin : Byte} {n : Nat} (hm : Safety.MayCall s len)
    (h : RunWhile Working n (s.accepted len pin) d) (hd : d.fsm = .done) :
    RunWhile (fun _ => True) (n + 2) (s.present len pin) d.returnToIdle.sample := by
  have haccept := RunWhile.one (P := fun _ => True) trivial (accept_tick pin hm)
  have hreturn := h.to_idle (by exact hm.2.2.1) hd
  exact (haccept.trans (hreturn.mono fun _ _ => trivial)).cast (Nat.add_comm 1 (n + 1))

/-- Settles O39: the ticks the host waits through are the steps of a machine whose host holds `start`, because a busy
block does not read it. -/
theorem callIsTheRunOfItsTicks : Obligations.CallIsTheRunOfItsTicks := by
  intro s len pin hm ha
  have hr : (s.present len pin).ports.rst = false := hm.2.2.1
  have hs : Safety.Undisturbed (s.present len pin) := ⟨hm.1, ha, hr⟩
  obtain ⟨n, d, hwork, hd, hn⟩ := exists_run_to_done pin hm
  have hrun := call_run_of_run hm hwork hd
  have hports : d.returnToIdle.sample.ports = (s.present len pin).ports := run_ports hr hrun
  have hwave := run_wave_length hr hrun
  refine ⟨_, n + 2, exec_setstripe_of_run hm hwork hd hn, hwave, ?_, fun k u hk hkn hu => ?_⟩
  · rw [steps_of_run hs hrun, ← hports]
    rfl
  · have hbusy : RunWhile (fun u => u.fsm ≠ .idle) (n + 1) (s.accepted len pin) _ := hwork.to_idle hr hd
    obtain ⟨v, hv, hrest⟩ := hbusy.cut (k := k - 1) (by omega)
    have hvbusy : v.fsm ≠ .idle := hrest.head (by omega)
    have haccept := RunWhile.one (P := fun _ => True) trivial (accept_tick pin hm)
    have hsteps := steps_of_run hs ((haccept.trans (hv.mono fun _ _ => trivial)).cast (n := k) (by omega))
    rw [hsteps] at hu
    cases hu
    exact decide_eq_true hvbusy

/-! ## The two failures -/

/-- Settles O40: the state after DONE, field by field. -/
theorem callRefusesTooManyPixels : Obligations.CallRefusesTooManyPixels := by
  intro s len pin hm hl
  rw [exec_setstripe_tooMany pin hm hl, State.returnToIdle, ← hm.2.1]
  rfl

/-- Settles O41: the state after DONE, field by field. -/
theorem callReportsAnUnresolvablePin : Obligations.CallReportsAnUnresolvablePin := by
  intro s len pin hm hl hp
  refine ⟨BitVec.ofNat 16 (wireBytes len), wireBytes_toNat hl, ?_⟩
  rw [exec_setstripe_pinFailed hm hl hp, State.returnToIdle, ← hm.2.1]
  rfl

/-- A pin that does not resolve has no waveform. -/
theorem waveform_of_unresolved {P : State → Prop} {n : Nat} {s t : State} {pin : Byte} (hs : Safety.Undisturbed s)
    (h : RunWhile P n s t) (hp : s.resolve pin = none) : waveform pin (n + 1) s = [] := by
  have hnone : ∀ u : State, u.cfg = s.cfg → u.pinLevel pin = none := by
    intro u hu
    show (resolveIn u.cfg.pinmap pin).map u.level = none
    rw [hu, show resolveIn s.cfg.pinmap pin = none from hp]
    rfl
  unfold waveform
  rw [visited_run hs h 1, visited_one, List.filterMap_eq_nil_iff]
  intro u hu
  rcases List.mem_append.mp hu with hu | hu
  · exact hnone u (visited_all hs h u hu).2
  · rw [List.mem_singleton.mp hu]
    exact hnone t (run_cfg hs h)

/-- Settles O51: the states of each failing call, written out to the IDLE state after it. -/
theorem failedCallsShowTheirSchedule : Obligations.FailedCallsShowTheirSchedule := by
  intro s len pin hm ha
  have hr := hm.2.2.1
  have hs : Safety.Undisturbed (s.present len pin) := ⟨hm.1, ha, hr⟩
  have hidle : (s.present len pin).fsm = .idle := hm.2.1
  refine ⟨fun hl => ?_, fun hl hp => ?_⟩
  · have hrun := call_run_of_run hm (tooMany_run pin hr hl) rfl
    have hvisited : visited 4 (s.present len pin) = visited 3 (s.present len pin) ++ visited 1 _ :=
      visited_run hs hrun 1
    rw [visited_tooMany pin hm ha hl, visited_one] at hvisited
    refine ⟨?_, fun r hp => ?_, ?_⟩
    · rw [hvisited, List.cons_append, List.map_cons, hidle]
      rfl
    · rw [waveform_of_run (n := 3) hs hrun hp, hvisited]
      rfl
    · rw [gieSequence, hvisited]
      rfl
  · have hrun := call_run_of_run hm (pinFailed_run hr hl hp) rfl
    have hvisited : visited 8 (s.present len pin) = visited 7 (s.present len pin) ++ visited 1 _ :=
      visited_run hs hrun 1
    rw [visited_pinFailed hm ha hl hp, visited_one] at hvisited
    refine ⟨?_, waveform_of_unresolved (n := 7) hs hrun hp, ?_⟩
    · rw [hvisited, List.cons_append, List.map_cons, hidle]
      rfl
    · rw [gieSequence, hvisited]
      rfl

/-! ## What a successful call leaves -/

section Sent

variable (s : State) (len : Half) (pin : Byte) (r : PinRef)

/-- The request and the target a successful call latches. -/
theorem State.sent_target : (s.sent len pin r).len = len ∧ (s.sent len pin r).pin = pin ∧
    (s.sent len pin r).ioaddr = r.addr ∧ (s.sent len pin r).mask = bitMask r.bit := by
  unfold State.sent; split <;> exact ⟨rfl, rfl, rfl, rfl⟩

/-- What a successful call does not write up to RELEASE. -/
theorem State.sent_frame : (s.sent len pin r).buf = s.buf ∧ (s.sent len pin r).agenda = s.agenda ∧
    (s.sent len pin r).draws = s.draws := by
  unfold State.sent; split <;> exact ⟨rfl, rfl, rfl⟩

/-- The set-up service's pin, and no other, joins the pins in output mode. -/
theorem State.sent_outmode : (s.sent len pin r).outmode = PinSet.insert s.outmode r := by
  unfold State.sent; split <;> rfl

/-- Clearing the pin's bit once more changes nothing after the set-up service. -/
theorem preloaded_clearBits (b : Byte) :
    clearBits ((s.preloaded len pin r b).ioRead r.addr) (bitMask r.bit) = s.lowValue r := by
  show clearBits (Memory.read (Memory.write s.io r.addr (s.lowValue r)) r.addr) _ = _
  rw [Memory.read_write_same, State.lowValue, clearBits_clearBits]

/-- In RELEASE the target register is as the set-up service left it, whether or not a bit was sent. -/
theorem State.sent_io : (s.sent len pin r).io = Memory.write s.io r.addr (s.lowValue r) := by
  unfold State.sent
  split
  · rfl
  · show Memory.write (Memory.write s.io r.addr (s.lowValue r)) r.addr
      (clearBits ((s.preloaded len pin r _).ioRead r.addr) (bitMask r.bit)) = _
    rw [preloaded_clearBits, Memory.write_write_same]

/-- A successful call with no pixel leaves the engine's data registers alone (44_bit_engine.md R169). -/
theorem State.sent_empty : (s.sent 0 pin r).bitcnt = s.bitcnt ∧ (s.sent 0 pin r).shreg = s.shreg ∧
    (s.sent 0 pin r).portval = s.portval ∧ (s.sent 0 pin r).curbit = s.curbit := ⟨rfl, rfl, rfl, rfl⟩

/-- The byte counters of a successful call: nothing remains, and the pointer is past the last byte. -/
theorem State.sent_counters {len : Half} (hl : len.toNat ≤ 21845) :
    (s.sent len pin r).remain = 0 ∧ (s.sent len pin r).ptr.toNat = 3 * len.toNat := by
  unfold State.sent
  split
  · next h0 => subst h0; exact ⟨rfl, rfl⟩
  · next h0 =>
    have hpos : len.toNat ≠ 0 := fun e => h0 (BitVec.eq_of_toNat_eq e)
    refine ⟨rfl, ?_⟩
    show ((1 : Half) + BitVec.ofNat 16 (3 * len.toNat - 1)).toNat = _
    rw [BitVec.toNat_add, BitVec.toNat_ofNat, show (1 : Half).toNat = 1 from rfl]
    omega

/-- The engine's data registers after the last byte of a call with pixels (44_bit_engine.md R169). -/
theorem State.sent_data {len : Half} (h0 : len ≠ 0) : (s.sent len pin r).bitcnt = 1 ∧ (s.sent len pin r).shreg = 0 ∧
    (s.sent len pin r).portval = s.lowValue r := by
  unfold State.sent
  rw [if_neg h0]
  exact ⟨rfl, rfl, preloaded_clearBits s len pin r _⟩

/-- The last bit in flight is the lowest bit of the request's last byte. -/
theorem State.sent_curbit {len : Half} (h0 : len ≠ 0) {b : Byte} (hb : s.buf[3 * len.toNat - 1]? = some b) :
    (s.sent len pin r).curbit = b.getLsbD 0 := by
  have hpos : len.toNat ≠ 0 := fun e => h0 (BitVec.eq_of_toNat_eq e)
  obtain ⟨hlt, -⟩ := List.getElem?_eq_some_iff.mp hb
  have hbytes := preloaded_pendingBytes (s := s) len pin r (n := 3 * len.toNat - 1) (by omega)
  have hlast : (s.buf.take (3 * len.toNat - 1 + 1)).getLastD 0 = b := by
    rw [List.take_add_one, hb]
    simp
  unfold State.sent
  rw [if_neg h0, State.engineEnd, hbytes, hlast]

end Sent

/-- Settles O42: RELEASE of the call, then the latch and the return, which write GIE, TCNT and FSM alone. -/
theorem callSucceedsForAResolvablePin : Obligations.CallSucceedsForAResolvablePin := by
  intro s len pin r hm hl hp
  obtain ⟨hlen, hpin, hioaddr, hmask⟩ := s.sent_target len pin r
  obtain ⟨hbuf, hagenda, hdraws⟩ := s.sent_frame len pin r
  obtain ⟨hremain, hptr⟩ := s.sent_counters pin r hl
  have hcfg := s.sent_cfg len pin r
  have hwave := run_wave_length (s := s.present len pin) hm.2.2.1 (call_run hm hl hp)
  have hlow : Safety.LowAt r.bit (s.ioRead r.addr) (s.lowValue r) := lowAt_clearBits _ _
  refine ⟨_, exec_setstripe_success hm hl hp, rfl, s.sent_ok len pin r, s.sent_err len pin r, hlen, hpin,
    s.sent_token len pin r, s.sent_token len pin r, hremain, hptr, ?tcnt, hioaddr, ?mask, fun h0 => ?data,
    fun b h0 hb => s.sent_curbit pin r h0 hb, fun h0 => ?empty, ?low, fun a ha => ?neighbours, ?outmode,
    hbuf, hcfg, hdraws, hagenda, ?steps⟩
  case tcnt =>
    show (BitVec.ofNat 16 (s.sent len pin r).cfg.latchTicks).toNat = _
    rw [hcfg, latchTicks_toNat hm.1]
  case mask =>
    show ∀ i : Nat, (s.sent len pin r).mask.testBit i = _
    rw [hmask]
    exact bitMask_testBit r.bit
  case data =>
    obtain ⟨hbitcnt, hshreg, hportval⟩ := s.sent_data pin r h0
    exact ⟨hbitcnt, hshreg, hportval.symm ▸ hlow⟩
  case empty =>
    subst h0
    exact s.sent_empty pin r
  case low =>
    show Safety.LowAt _ _ (Memory.read (s.sent len pin r).io r.addr)
    rw [State.sent_io, Memory.read_write_same]
    exact hlow
  case neighbours =>
    show Memory.read (s.sent len pin r).io a = _
    rw [State.sent_io, Memory.read_write_other _ _ ha]
    rfl
  case outmode =>
    show ∀ q, q ∈ (s.sent len pin r).outmode ↔ _
    rw [State.sent_outmode]
    exact PinSet.mem_insert s.outmode r
  case steps => exact hwave

end Sys2Proof.Machine
end

section
/-! SUPPORT. What one step runs (46_orchestration.md R201 to R205): IDLE's paths and DONE, the state graph, and each kind
of agenda entry against the instruction its code decodes to. -/

namespace Sys2Proof.Machine

open Sys2Proof

/-! ## IDLE, DONE and the state graph -/

/-- Settles O22: DONE writes FSM alone. -/
theorem doneReturnsAndKeepsTheResult : Obligations.DoneReturnsAndKeepsTheResult :=
  fun _ => ⟨_, rfl, rfl, rfl, rfl, rfl⟩

theorem execIdle_waits {s : State} (h : s.ports.start = false) : execIdle s = .next s := by
  rw [execIdle, h]
  rfl

theorem execIdle_accepts {s : State} (h : s.ports.start = true) (hb : s.bufferServes s.ports.reqLen = true) :
    execIdle s =
      .next { s with len := s.ports.reqLen, pin := s.ports.reqPin, err := .noError, ok := false, fsm := .validate } := by
  rw [execIdle, if_pos h, if_pos hb]
  rfl

/-- Settles O8: IDLE's paths by `start`, and the other operations by `runOp_withPorts`. -/
theorem idleAcceptsARequestOrWaits : Obligations.IdleAcceptsARequestOrWaits := by
  refine fun s => ⟨execIdle_waits, fun hstart hserves => ?_, fun f p hf => ?_⟩
  · exact execIdle_accepts hstart ((bufferServes_iff s _).mpr hserves)
  · rw [exec_instr, exec_instr]
    exact runOp_withPorts hf s p

/-- Settles O24: exec of the operation FSM names is the operation whose successor `runOp_fsm` gives. -/
theorem operationsFollowTheStateGraph : Obligations.OperationsFollowTheStateGraph := by
  intro s t h
  rw [exec_instr] at h
  exact runOp_fsm h

/-! ## A call entry, sampled or lost -/

/-- A call entry: the buffer is bound if the tick can sample the request, then the call runs (log 10). -/
theorem step_call_entry {s : State} {len : Half} {pin : Byte} {pixels : List Byte} {rest : List Event}
    (hw : s.cfg.wf = true) (ha : s.agenda = .call len pin pixels :: rest) :
    step s = exec (.setstripe len pin) ({ s with agenda := rest }.bindBuffer pixels) := by
  rw [step, if_pos hw, ha]

theorem step_call_sampled {s : State} {len : Half} {pin : Byte} {pixels : List Byte} {rest : List Event}
    (hw : s.cfg.wf = true) (ha : s.agenda = .call len pin pixels :: rest) (hf : s.fsm = .idle)
    (hr : s.ports.rst = false) : step s = exec (.setstripe len pin) { s with agenda := rest, buf := pixels } := by
  rw [step_call_entry hw ha, State.bindBuffer, if_pos ⟨hf, hr⟩]

theorem step_call_lost {s : State} {len : Half} {pin : Byte} {pixels : List Byte} {rest : List Event}
    (hw : s.cfg.wf = true) (ha : s.agenda = .call len pin pixels :: rest) (hlost : s.fsm ≠ .idle ∨ s.ports.rst = true) :
    step s = exec (.setstripe len pin) { s with agenda := rest } := by
  have hunsampled : ¬ (s.fsm = .idle ∧ s.ports.rst = false) := by
    rcases hlost with h | h <;> simp [h]
  rw [step_call_entry hw ha, State.bindBuffer, if_neg hunsampled]

/-- SETSTRIPE to a busy block is the one tick in which the request was on the ports. -/
theorem execSetstripe_busy {s : State} (len : Half) (pin : Byte) (hf : s.fsm ≠ .idle) (hr : s.ports.rst = false) :
    execSetstripe len pin s =
      Safety.onNext (fun t => t.withPorts (s.present len pin).withdraw.ports) (sampled (runOp s.fsm s)) := by
  have hop : runOp s.fsm (s.present len pin) = Safety.onNext (fun t => t.withPorts _) (runOp s.fsm s) :=
    runOp_withPorts hf s _
  have htick : clock runOp (s.present len pin) = sampled (runOp s.fsm (s.present len pin)) := clock_run hr
  rw [execSetstripe, htick, hop]
  cases runOp s.fsm s with
  | next t => exact if_neg hf
  | fault f => rfl
  | refused r => rfl

/-- Settles O48: the operation of a busy block does not read the ports, and its call binds no buffer. -/
theorem requestWhileBusyIsLost : Obligations.RequestWhileBusyIsLost := by
  intro s len pin hf hr
  rw [exec_instr]
  exact ⟨execSetstripe_busy len pin hf hr, fun _ _ hw => step_call_lost hw rfl (.inl hf)⟩

/-! ## Entry by entry -/

/-- A wire entry: the symbol's row runs (log 12). -/
theorem step_wire_entry {s : State} {symbol : Symbol} {rest : List Event} (hw : s.cfg.wf = true)
    (ha : s.agenda = .wire symbol :: rest) : step s = exec symbol.instr { s with agenda := rest } := by
  rw [step, if_pos hw, ha]

/-- A tick without reset runs the instruction FSM's code decodes to, whatever the parameters. -/
theorem clock_decoded {s : State} (hr : s.ports.rst = false) {c : Config} {i : Instr}
    (hi : decode c s.fsm.codeWord = some i) : clock runOp s = sampled (exec i s) := by
  rw [decode_codeWord] at hi
  cases hi
  rw [clock_run hr, exec_instr]

/-- The inputs of a tick do not touch FSM. -/
theorem applyInput_fsm (s : State) (i : TickInput) : (s.applyInput i).fsm = s.fsm := by
  obtain ⟨io, gie, outmode, buf, h⟩ := applyMoves_frame i.moves s
  rw [State.applyInput, h]

/-- Settles O3: each agenda entry has its step, and each code decodes to one row. -/
theorem stepRunsTheDecodedInstruction : Obligations.StepRunsTheDecodedInstruction := by
  intro s hw
  refine ⟨fun ha hr i hi => ?held, fun input rest ha hr u hu => ?tick, fun len pin pixels rest ha i hi => ?call,
    fun symbol rest ha i hi => ?wire⟩
  case held => rw [step_held hw ha, clock_decoded hr hi]
  case tick =>
    subst hu
    have hfsm := applyInput_fsm { s with agenda := rest } input
    refine ⟨hfsm, rfl, (applyInput_frame _ input).2, fun i hi => ?_⟩
    rw [step_tick_entry hw ha]
    exact clock_decoded (by exact hr) (hfsm.symm ▸ hi)
  case call =>
    rw [decode_requestWord] at hi
    cases hi
    exact ⟨rfl, step_call_sampled hw ha, step_call_lost hw ha⟩
  case wire =>
    rw [decode_symbol hw] at hi
    cases hi
    exact ⟨rfl, step_wire_entry hw ha⟩

end Sys2Proof.Machine
end

section
/-! SUPPORT. How a step can end (60_exceptions.md R233, 46_orchestration.md R206, 20_memory.md R67): under legal
parameters every operation, tick, call and step leads to a next state or is refused for a short buffer. -/

namespace Sys2Proof.Machine

open Sys2Proof

/-- The only two ways a run can go under legal parameters. -/
def NextOrShortBuffer (o : Host.Outcome State Fault Refusal) : Prop := (∃ t, o = .next t) ∨ o = .refused .shortBuffer

theorem NextOrShortBuffer.not_fault {o : Host.Outcome State Fault Refusal} (h : NextOrShortBuffer o) (f : Fault) :
    o ≠ .fault f := by
  rcases h with ⟨t, rfl⟩ | rfl <;> exact nofun

theorem NextOrShortBuffer.refusal_eq {o : Host.Outcome State Fault Refusal} (h : NextOrShortBuffer o) {r : Refusal}
    (hr : o = .refused r) : r = .shortBuffer := by
  rcases h with ⟨t, rfl⟩ | rfl <;> cases hr
  rfl

theorem runOp_nextOrShortBuffer (f : Fsm) (s : State) : NextOrShortBuffer (runOp f s) :=
  (runOp_stops f s).imp_right And.left

theorem NextOrShortBuffer.onNext {o : Host.Outcome State Fault Refusal} (h : NextOrShortBuffer o) (g : State → State) :
    NextOrShortBuffer (Safety.onNext g o) := by
  rcases h with ⟨t, rfl⟩ | rfl
  · exact .inl ⟨_, rfl⟩
  · exact .inr rfl

/-- The chain's sample is taken in the next state, if there is one (log 15). -/
theorem sampled_eq_onNext (o : Host.Outcome State Fault Refusal) : sampled o = Safety.onNext State.sample o := by
  cases o <;> rfl

theorem NextOrShortBuffer.sampled {o : Host.Outcome State Fault Refusal} (h : NextOrShortBuffer o) :
    NextOrShortBuffer (sampled o) :=
  sampled_eq_onNext o ▸ h.onNext _

theorem clock_nextOrShortBuffer (s : State) : NextOrShortBuffer (clock runOp s) := by
  cases hr : s.ports.rst with
  | true => exact .inl ⟨_, clock_reset hr⟩
  | false => exact clock_run hr ▸ (runOp_nextOrShortBuffer s.fsm s).sampled

/-! ## The blocking call -/

/-- A block in IDLE ends the host's wait, whatever the fuel. -/
theorem untilIdle_of_idle (fuel : Nat) {s : State} (hf : s.fsm = .idle) : untilIdle fuel s = .next s := by
  cases fuel <;> exact if_pos hf

/-- A call in reset is the reset tick: it leaves the block in IDLE, so the host does not wait. -/
theorem execSetstripe_reset {s : State} (len : Half) (pin : Byte) (hr : s.ports.rst = true) :
    execSetstripe len pin s = .next (s.present len pin).resetBlock.sample.withdraw := by
  rw [execSetstripe, clock_reset (s := s.present len pin) hr]
  by_cases hf : s.fsm = .idle
  · exact (if_pos hf).trans (untilIdle_of_idle _ rfl)
  · exact if_neg hf

/-- An idle block refuses a request whose buffer is short, and the call with it (U3). -/
theorem execSetstripe_shortBuffer {s : State} {len : Half} (pin : Byte) (hf : s.fsm = .idle)
    (hr : s.ports.rst = false) (hb : s.bufferServes len = false) :
    execSetstripe len pin s = .refused .shortBuffer := by
  have hidle : execIdle (s.present len pin) = .refused .shortBuffer := by
    rw [execIdle, if_pos (by rfl), if_neg (by exact ne_true_of_eq_false hb)]
  rw [execSetstripe, clock_run (s := s.present len pin) hr, State.present_fsm, hf, runOp, hidle]
  rfl

/-- An accepted call returns (R206). -/
theorem execSetstripe_returns {s : State} {len : Half} (pin : Byte) (hm : Safety.MayCall s len) :
    ∃ t, execSetstripe len pin s = .next t := by
  obtain ⟨n, d, hrun, hd, hn⟩ := exists_run_to_done pin hm
  exact ⟨_, exec_setstripe_of_run hm hrun hd hn⟩

theorem execSetstripe_nextOrShortBuffer {s : State} (hw : s.cfg.wf = true) (len : Half) (pin : Byte) :
    NextOrShortBuffer (execSetstripe len pin s) := by
  cases hr : s.ports.rst with
  | true => exact .inl ⟨_, execSetstripe_reset len pin hr⟩
  | false =>
    by_cases hf : s.fsm = .idle
    · cases hb : s.bufferServes len with
      | true => exact .inl (execSetstripe_returns pin ⟨hw, hf, hr, (bufferServes_iff s len).mp hb⟩)
      | false => exact .inr (execSetstripe_shortBuffer pin hf hr hb)
    · exact execSetstripe_busy len pin hf hr ▸ (runOp_nextOrShortBuffer s.fsm s).sampled.onNext _

/-! ## The step -/

theorem exec_symbol_next (symbol : Symbol) (s : State) : ∃ t, exec symbol.instr s = .next t := by
  cases symbol <;> exact ⟨_, rfl⟩

theorem step_nextOrShortBuffer {s : State} (hw : s.cfg.wf = true) : NextOrShortBuffer (step s) := by
  rcases step_cases hw with ⟨-, h⟩ | ⟨input, rest, -, h⟩ | ⟨len, pin, pixels, rest, -, h⟩ |
    ⟨symbol, rest, -, h⟩ <;> rw [h]
  · exact clock_nextOrShortBuffer s
  · exact clock_nextOrShortBuffer _
  · exact execSetstripe_nextOrShortBuffer (by exact hw) len pin
  · exact .inl (exec_symbol_next symbol _)

theorem step_of_illegal {s : State} (hw : s.cfg.wf = false) : step s = .refused .badConfiguration :=
  if_neg (ne_true_of_eq_false hw)

/-- Settles O31: illegal parameters stop the step before anything runs; under legal ones it leads on or is refused for a
short buffer, a blocking call by its run to DONE within R206's bound. -/
theorem stepNeverFaults : Obligations.StepNeverFaults := by
  intro s
  cases hw : s.cfg.wf with
  | false =>
    rw [step_of_illegal hw]
    exact ⟨nofun, fun r hr => .inl (by cases hr; rfl), fun _ => rfl, fun _ => rfl⟩
  | true =>
    have hstep := step_nextOrShortBuffer hw
    exact ⟨hstep.not_fault, fun r hr => .inr (hstep.refusal_eq hr), (nomatch hstep.refusal_eq ·), nofun⟩

end Sys2Proof.Machine
end
